-- ==== Sys2Proof/Word.lean ====
section
/-! DEFINITION. The widths of the block: a byte, the 32-bit integrity code, a command word, an offset field, a response word. -/
namespace Sys2Proof

/-- A byte of a report, or an `IMM8` operand (spec R13, R51). -/
abbrev Byte := BitVec 8

/-- The accumulator and the integrity code, `CRC_WIDTH` = 32 bits (R5, R16). -/
abbrev Word := BitVec 32

/-- One command word `cw[63:0]` (R50). -/
abbrev CommandWord := BitVec 64

/-- The 10-bit `ADDR` field: a byte offset of `RB`, or the byte count of `CKSUM` (R51). -/
abbrev Offset := BitVec 10

/-- A nibble, the address of the directional-pad ROM (R72). -/
abbrev Nibble := BitVec 4

/-- A response in its binary form, `{KIND[2:0], PAYLOAD[31:0]}` (R53). -/
abbrev ResponseWord := BitVec 35

end Sys2Proof
end

