-- ==== Sys2Proof/Config.lean ====
section
/-! DEFINITION. What an implementation fixes: the constants of the source (R5), the configuration record (R6), its
reference instantiation (93_implementation_defined.md Part 3), and the free value drawn for `ACC` at reset. -/
namespace Sys2Proof

/-- The transport, `enum {Wired, WirelessRadio}` (R15). -/
inductive Transport where
  | wired
  | wirelessRadio
deriving DecidableEq, Repr

/-- The trigger select `g`: the first trigger is 0, the second 1 (R51, R80). -/
inductive Trigger where
  | first
  | second
deriving DecidableEq, Repr

/-- The eight directions of the directional pad (R71). -/
inductive Direction where
  | n
  | ne
  | e
  | se
  | s
  | sw
  | w
  | nw
deriving DecidableEq, Repr

namespace Config

/-- `CRC_WIDTH` (R5). -/
def crcWidth : Nat := 32

/-- `IN_LEN(t)`, the input report's length; context only, no rule uses it (R5). -/
def inLen : Transport → Nat
  | .wired => 64
  | .wirelessRadio => 78

/-- `OUT_LEN(t)`, the output report's length and the report buffer's logical length (R5, R13). -/
def outLen : Transport → Nat
  | .wired => 48
  | .wirelessRadio => 547

/-- `PARSE_OFF(t)`; context only, no rule uses it (R5). -/
def parseOff : Transport → Nat
  | .wired => 1
  | .wirelessRadio => 2

/-- The physical size of `RB` in bytes (R13). -/
def rbSize : Nat := 547

/-- `CKS_LEN`: the sealed checksum covers `[0, 74)` (R5). -/
def cksLen : Nat := 74

/-- `CKS_OFF`: the first byte of the checksum field (R5, R32). -/
def cksOff : Nat := 74

/-- `ACC` after the host's reset action: R150 calls it unspecified, "any 32-bit value; a model draws it". The n-th draw is
the value at n; nothing constrains it (assumption log, entry 4). -/
opaque accDraw : Nat → Word

end Config

/-- The configuration record `cfg` of R6, with every parameter the source names and does not give. Whether a record is
well formed is `CfgRecord.wellFormed` (R7). -/
structure CfgRecord where
  /-- `CRC_POLY`, coefficients of x^31 .. x^0 (R101). -/
  crcPoly : Word
  /-- `CRC_INIT`. -/
  crcInit : Word
  /-- `CRC_REFIN`. -/
  crcRefIn : Bool
  /-- `CRC_REFOUT`. -/
  crcRefOut : Bool
  /-- `CRC_XOROUT`. -/
  crcXorOut : Word
  /-- `CRC_SEED`: none, or one byte. -/
  crcSeed : Option Byte
  /-- `DPAD_MAP`, nibbles 0 to 7. -/
  dpadMap : Vector Direction 8
  /-- `TE_BASE(Wired, 0)`. -/
  teBaseWired0 : Nat
  /-- `TE_BASE(Wired, 1)`. -/
  teBaseWired1 : Nat
  /-- `TE_BASE(WirelessRadio, 0)`. -/
  teBaseWireless0 : Nat
  /-- `TE_BASE(WirelessRadio, 1)`. -/
  teBaseWireless1 : Nat
  /-- `TE_LEN`. -/
  teLen : Nat
  /-- `TE_X_START_OFF`. -/
  teXStartOff : Nat
  /-- `TE_X_KEEP_OFF`. -/
  teXKeepOff : Nat
  /-- `TE_X_BEGIN_OFF`. -/
  teXBeginOff : Nat
  /-- `TE_X_MID_OFF`. -/
  teXMidOff : Nat
  /-- `TE_X_END_OFF`. -/
  teXEndOff : Nat
  /-- `TE_X_FREQ_OFF`. -/
  teXFreqOff : Nat
  /-- `TE_X_KEEP_VAL`. -/
  teXKeepVal : Byte
deriving DecidableEq, Repr

/-- `TE_BASE(t, g)` (R6, R82). -/
def CfgRecord.teBase (c : CfgRecord) : Transport → Trigger → Nat
  | .wired, .first => c.teBaseWired0
  | .wired, .second => c.teBaseWired1
  | .wirelessRadio, .first => c.teBaseWireless0
  | .wirelessRadio, .second => c.teBaseWireless1

/-- The six sub-offsets of ExtendedEffect (R6, R87). -/
def CfgRecord.teXOffsets (c : CfgRecord) : List Nat :=
  [c.teXStartOff, c.teXKeepOff, c.teXBeginOff, c.teXMidOff, c.teXEndOff, c.teXFreqOff]

/-- The directional-pad table decided in R73, clockwise from up. -/
def Config.dpadMapRef : Vector Direction 8 := #v[.n, .ne, .e, .se, .s, .sw, .w, .nw]

/-- `cfg_ref`, the reference instantiation (93_implementation_defined.md Part 3). PRESUMED: the spec marks it general
knowledge and not normative (R115; assumption log, entry 2). -/
def Config.refRecord : CfgRecord where
  crcPoly := 0x04C11DB7#32
  crcInit := 0xFFFFFFFF#32
  crcRefIn := true
  crcRefOut := true
  crcXorOut := 0xFFFFFFFF#32
  crcSeed := some 0xA2#8
  dpadMap := Config.dpadMapRef
  teBaseWired0 := 11
  teBaseWired1 := 22
  teBaseWireless0 := 12
  teBaseWireless1 := 23
  teLen := 11
  teXStartOff := 1
  teXKeepOff := 2
  teXBeginOff := 4
  teXMidOff := 5
  teXEndOff := 6
  teXFreqOff := 9
  teXKeepVal := 0x02#8

end Sys2Proof
end

