-- ==== Sys2Proof/Syntax.lean ====
section
/-! DEFINITION. The abstract command type of R52, one constructor per row of spec/opcode_table.json. -/
namespace Sys2Proof

/-- The fifteen commands (R52, R54). The operand types are the fields' widths (R51), so every term of this type is a
command the word encodes, and every operand value is legal as an operand (R58). -/
inductive Instr where
  /-- `MODE.SET t` (R120). -/
  | modeSet (t : Transport)
  /-- `RB.CLR` (R121). -/
  | rbClr
  /-- `RB.WR a, d` (R122). -/
  | rbWr (a : Offset) (d : Byte)
  /-- `RB.RD a` (R123). -/
  | rbRd (a : Offset)
  /-- `CRC.INIT` (R105). -/
  | crcInit
  /-- `CRC.BYTE d` (R106). -/
  | crcByte (d : Byte)
  /-- `CRC.FIN` (R107). -/
  | crcFin
  /-- `CKSUM n` (R108). -/
  | cksum (n : Offset)
  /-- `SEAL` (R109). -/
  | sealReport
  /-- `DPAD.DEC b` (R74). -/
  | dpadDec (b : Byte)
  /-- `TE.NONE g` (R83). -/
  | teNone (g : Trigger)
  /-- `TE.CONT g, start, force` (R84). -/
  | teCont (g : Trigger) (start force : Byte)
  /-- `TE.SECT g, start, force` (R85). -/
  | teSect (g : Trigger) (start force : Byte)
  /-- `TE.EXT g, start, keep, begin, middle, end, freq` (R86). -/
  | teExt (g : Trigger) (start : Byte) (keep : Bool) (beginF middleF endF freq : Byte)
  /-- `TE.CAL g` (R88). -/
  | teCal (g : Trigger)
deriving DecidableEq, Repr

end Sys2Proof
end

