-- ==== Sys2Proof/WellFormed.lean ====
section
/-! DEFINITION. Well-formedness. A configuration record is checked by the five items of R7; a machine is built only for a
record that passes (`Cfg` carries the proof). Commands need no check: the operand types of `Instr` are the fields' widths,
and every operand value is legal (R52, R58). -/
namespace Sys2Proof

/-- R7 item 1: `CRC_POLY[0] = 1`. -/
def CfgRecord.polyOdd (c : CfgRecord) : Bool := c.crcPoly.getLsbD 0

/-- R7 item 3 with conflict C9: `TE_LEN >= 7`. -/
def CfgRecord.lenFits (c : CfgRecord) : Bool := decide (7 ≤ c.teLen)

/-- R7 item 3: each of the six sub-offsets is in `1 .. TE_LEN-1`. -/
def CfgRecord.offsetsInField (c : CfgRecord) : Bool :=
  c.teXOffsets.all fun o => decide (1 ≤ o) && decide (o < c.teLen)

/-- R7 item 3: the six sub-offsets are pairwise distinct. -/
def CfgRecord.offsetsDistinct (c : CfgRecord) : Bool := decide c.teXOffsets.Nodup

/-- R7 item 4, for one transport: each field lies inside the report. DESIGN CHOICE (assumption log, entry 12; safe): a wireless
field may also lie at offsets 74 to 546, as R7 and R159 allow, although R31 and conflict C2 name no `TE.*` among the writers of
78 to 546. -/
def CfgRecord.fieldsInside (c : CfgRecord) (t : Transport) : Bool :=
  decide (c.teBase t .first + c.teLen ≤ Config.outLen t) && decide (c.teBase t .second + c.teLen ≤ Config.outLen t)

/-- R7 item 5, for one transport: the two fields are disjoint ranges. -/
def CfgRecord.fieldsDisjoint (c : CfgRecord) (t : Transport) : Bool :=
  decide (c.teBase t .first + c.teLen ≤ c.teBase t .second) || decide (c.teBase t .second + c.teLen ≤ c.teBase t .first)

/-- R7. Item 2 (`DPAD_MAP` entries are the eight directions) is carried by the type of `dpadMap`. -/
def CfgRecord.wellFormed (c : CfgRecord) : Bool :=
  c.polyOdd && c.lenFits && c.offsetsInField && c.offsetsDistinct
    && c.fieldsInside .wired && c.fieldsInside .wirelessRadio
    && c.fieldsDisjoint .wired && c.fieldsDisjoint .wirelessRadio

/-- A well-formed configuration: R7, "a model refuses (does not build a machine for) a record that is not well formed". -/
structure Cfg extends CfgRecord where
  wf : toCfgRecord.wellFormed = true
deriving DecidableEq, Repr

/-- `cfg_ref` as a well-formed configuration (93_implementation_defined.md Part 3 says why it is well formed). -/
def Config.ref : Cfg where
  toCfgRecord := Config.refRecord
  wf := by decide

end Sys2Proof
end

