-- ==== Sys2Proof/Decode.lean ====
section
/-! DEFINITION. The command word: the match and mask table of R55, the decoder, and the encoder of R50 and R56. -/
namespace Sys2Proof

/-- Why a word is illegal: the two ways of R57. -/
inductive DecodeReject where
  /-- `OP` is not one of the fifteen of R54. -/
  | unknownOp (op : Byte)
  /-- `OP` is listed and a reserved bit of its format is 1. -/
  | reservedBits (op : Byte)
deriving DecidableEq, Repr

/-- A row of R55: a word is the command of the row exactly when `cw and MASK = MATCH`; `build` reads its operands. -/
structure DecodeRow where
  mnemonic : String
  pattern : CommandWord
  mask : CommandWord
  build : CommandWord → Instr

/-- `OP`, `cw[63:56]` (R50, R51). -/
def fieldOp (cw : CommandWord) : Byte := cw.extractLsb' 56 8

/-- `T`, `cw[0]`: 0 is `Wired`, 1 `WirelessRadio` (R15, R51). -/
def fieldT (cw : CommandWord) : Transport := if cw.getLsbD 0 then .wirelessRadio else .wired

/-- `IMM8`, `cw[7:0]` (R51). -/
def fieldImm8 (cw : CommandWord) : Byte := cw.extractLsb' 0 8

/-- `ADDR`, `cw[17:8]` (R51). -/
def fieldAddr (cw : CommandWord) : Offset := cw.extractLsb' 8 10

/-- `G`, `cw[55]` (R51). -/
def fieldG (cw : CommandWord) : Trigger := if cw.getLsbD 55 then .second else .first

/-- `START`, `cw[47:40]` (R51). -/
def fieldStart (cw : CommandWord) : Byte := cw.extractLsb' 40 8

/-- `P2`, `cw[39:32]` (R51). -/
def fieldP2 (cw : CommandWord) : Byte := cw.extractLsb' 32 8

/-- `MID`, `cw[31:24]` (R51). -/
def fieldMid (cw : CommandWord) : Byte := cw.extractLsb' 24 8

/-- `END`, `cw[23:16]` (R51). -/
def fieldEnd (cw : CommandWord) : Byte := cw.extractLsb' 16 8

/-- `FREQ`, `cw[15:8]` (R51). -/
def fieldFreq (cw : CommandWord) : Byte := cw.extractLsb' 8 8

/-- `KEEP`, `cw[0]` (R51). -/
def fieldKeep (cw : CommandWord) : Bool := cw.getLsbD 0

/-- The match and mask table, letter for letter R55. -/
def decodeRows : List DecodeRow := [
  ⟨"MODE.SET", 0x0100000000000000#64, 0xFFFFFFFFFFFFFFFE#64, fun cw => .modeSet (fieldT cw)⟩,
  ⟨"RB.CLR",   0x0200000000000000#64, 0xFFFFFFFFFFFFFFFF#64, fun _ => .rbClr⟩,
  ⟨"RB.WR",    0x0300000000000000#64, 0xFFFFFFFFFFFC0000#64, fun cw => .rbWr (fieldAddr cw) (fieldImm8 cw)⟩,
  ⟨"RB.RD",    0x0400000000000000#64, 0xFFFFFFFFFFFC00FF#64, fun cw => .rbRd (fieldAddr cw)⟩,
  ⟨"CRC.INIT", 0x1000000000000000#64, 0xFFFFFFFFFFFFFFFF#64, fun _ => .crcInit⟩,
  ⟨"CRC.BYTE", 0x1100000000000000#64, 0xFFFFFFFFFFFFFF00#64, fun cw => .crcByte (fieldImm8 cw)⟩,
  ⟨"CRC.FIN",  0x1200000000000000#64, 0xFFFFFFFFFFFFFFFF#64, fun _ => .crcFin⟩,
  ⟨"CKSUM",    0x1300000000000000#64, 0xFFFFFFFFFFFC00FF#64, fun cw => .cksum (fieldAddr cw)⟩,
  ⟨"SEAL",     0x1400000000000000#64, 0xFFFFFFFFFFFFFFFF#64, fun _ => .sealReport⟩,
  ⟨"DPAD.DEC", 0x2000000000000000#64, 0xFFFFFFFFFFFFFF00#64, fun cw => .dpadDec (fieldImm8 cw)⟩,
  ⟨"TE.NONE",  0x3000000000000000#64, 0xFF7FFFFFFFFFFFFF#64, fun cw => .teNone (fieldG cw)⟩,
  ⟨"TE.CONT",  0x3100000000000000#64, 0xFF7F0000FFFFFFFF#64,
    fun cw => .teCont (fieldG cw) (fieldStart cw) (fieldP2 cw)⟩,
  ⟨"TE.SECT",  0x3200000000000000#64, 0xFF7F0000FFFFFFFF#64,
    fun cw => .teSect (fieldG cw) (fieldStart cw) (fieldP2 cw)⟩,
  ⟨"TE.EXT",   0x3300000000000000#64, 0xFF7F0000000000FE#64,
    fun cw => .teExt (fieldG cw) (fieldStart cw) (fieldKeep cw) (fieldP2 cw) (fieldMid cw) (fieldEnd cw) (fieldFreq cw)⟩,
  ⟨"TE.CAL",   0x3400000000000000#64, 0xFF7FFFFFFFFFFFFF#64, fun cw => .teCal (fieldG cw)⟩]

/-- `cw` is the command of the row: `cw and MASK = MATCH` (R55). -/
def DecodeRow.matchesWord (r : DecodeRow) (cw : CommandWord) : Bool := (cw &&& r.mask) == r.pattern

/-- Which of the two ways of R57 makes an illegal word illegal. -/
def rejectReason (cw : CommandWord) : DecodeReject :=
  if decodeRows.any (fun r => fieldOp r.pattern == fieldOp cw) then .reservedBits (fieldOp cw) else .unknownOp (fieldOp cw)

/-- The decoder: the row the word matches, or the way in which it is illegal (R55, R57). -/
def decode (cw : CommandWord) : Except DecodeReject Instr :=
  match decodeRows.find? (fun r => r.matchesWord cw) with
  | some r => .ok (r.build cw)
  | none => .error (rejectReason cw)

/-- The instruction whose bits are `w`, bit 0 the least significant (the command word is one 64-bit word). -/
def decodeTableWord (nbits w : Nat) : Option Instr :=
  match decode (BitVec.ofNat 64 (w % 2 ^ nbits)) with
  | .ok i => some i
  | .error _ => none

/-- Format Z of R50: no operand. -/
def formatZ (op : Byte) : CommandWord := (op ++ 0#56).cast rfl

/-- Format M of R50: the transport bit. -/
def formatM (op : Byte) (t : BitVec 1) : CommandWord := (op ++ 0#55 ++ t).cast rfl

/-- Format B of R50: a byte immediate. -/
def formatB (op imm : Byte) : CommandWord := (op ++ 0#48 ++ imm).cast rfl

/-- Format W of R50: an address and a byte; format A is W with the low byte reserved. -/
def formatW (op : Byte) (a : Offset) (imm : Byte) : CommandWord := (op ++ 0#38 ++ a ++ imm).cast rfl

/-- Format A of R50: an address or a length. -/
def formatA (op : Byte) (a : Offset) : CommandWord := formatW op a 0#8

/-- Format T of R50: a trigger effect. -/
def formatT (op : Byte) (g : BitVec 1) (start p2 mid endB freq : Byte) (keep : BitVec 1) : CommandWord :=
  (op ++ g ++ 0#7 ++ start ++ p2 ++ mid ++ endB ++ freq ++ 0#7 ++ keep).cast rfl

/-- The bit of a transport: 0 `Wired`, 1 `WirelessRadio` (R15). -/
def Transport.bit : Transport → BitVec 1
  | .wired => 0#1
  | .wirelessRadio => 1#1

/-- The bit of a trigger: 0 the first, 1 the second (R51). -/
def Trigger.bit : Trigger → BitVec 1
  | .first => 0#1
  | .second => 1#1

/-- The `OP` value of a command (R54). -/
def Instr.op : Instr → Byte
  | .modeSet _ => 0x01#8
  | .rbClr => 0x02#8
  | .rbWr _ _ => 0x03#8
  | .rbRd _ => 0x04#8
  | .crcInit => 0x10#8
  | .crcByte _ => 0x11#8
  | .crcFin => 0x12#8
  | .cksum _ => 0x13#8
  | .sealReport => 0x14#8
  | .dpadDec _ => 0x20#8
  | .teNone _ => 0x30#8
  | .teCont _ _ _ => 0x31#8
  | .teSect _ _ _ => 0x32#8
  | .teExt _ _ _ _ _ _ _ => 0x33#8
  | .teCal _ => 0x34#8

/-- The command word of a command, every reserved bit 0 (R50, R54, R56). -/
def encode (i : Instr) : CommandWord :=
  match i with
  | .modeSet t => formatM i.op t.bit
  | .rbClr => formatZ i.op
  | .rbWr a d => formatW i.op a d
  | .rbRd a => formatA i.op a
  | .crcInit => formatZ i.op
  | .crcByte d => formatB i.op d
  | .crcFin => formatZ i.op
  | .cksum n => formatA i.op n
  | .sealReport => formatZ i.op
  | .dpadDec b => formatB i.op b
  | .teNone g => formatT i.op g.bit 0#8 0#8 0#8 0#8 0#8 0#1
  | .teCont g start force => formatT i.op g.bit start force 0#8 0#8 0#8 0#1
  | .teSect g start force => formatT i.op g.bit start force 0#8 0#8 0#8 0#1
  | .teExt g start keep b m e q => formatT i.op g.bit start b m e q (BitVec.ofBool keep)
  | .teCal g => formatT i.op g.bit 0#8 0#8 0#8 0#8 0#8 0#1

end Sys2Proof
end

