-- ==== Sys2Proof/Machine/State.lean ====
section
/-! DEFINITION. The state of the block: the spec's tuple (R24) and the model's own fields for the host's side, the reasons
to stop, and the state after reset (R150). -/
namespace Sys2Proof.Machine

/-- The four fault causes of the block (R130). A fault of the block is no stop of the machine: it is a next state whose
response is `Fault(cause)` (R133). -/
inductive Cause where
  /-- The command word matches no row of R55. -/
  | illegalCommand
  /-- `RB.WR` or `RB.RD` outside the report's logical length. -/
  | addressFault
  /-- `CKSUM` with a length greater than the report's logical length. -/
  | lengthFault
  /-- `CRC.BYTE` or `CRC.FIN` while `ACCV = 0`. -/
  | sequenceFault
deriving DecidableEq, Repr

/-- The edge flags of the directional pad, in the source's order (R53, R71). -/
structure EdgeFlags where
  up : Bool
  down : Bool
  left : Bool
  right : Bool
deriving DecidableEq, Repr

/-- What a command responds (R53). -/
inductive Response where
  | ok
  | byte (v : Byte)
  | word (v : Word)
  | dpad (f : EdgeFlags)
  | fault (c : Cause)
deriving DecidableEq, Repr

/-- A move of the host: it presents a command word (R10), or it applies reset, which is no command (R151). -/
inductive HostMove where
  | command (cw : CommandWord)
  | reset
deriving DecidableEq, Repr

/-- The report buffer: address and byte pairs, addresses strictly rising, no byte 0x00 listed. An unlisted address reads
0x00, the reset and clear value (R14). -/
abbrev Memory := List Host.Cell

/-- The reasons for a machine stop. There is none: every command of the block responds and the block does not halt (R12,
R133), so nothing raises one. Safe: no behaviour is cut off. -/
inductive Fault : Type
deriving DecidableEq, Repr

/-- The reasons for which an instruction has no meaning in the model. -/
inductive Refusal where
  /-- An instruction without a meaning, rejected by name in `exec`; no arm does so. Safe. -/
  | notModelled (mnemonic : String)
deriving DecidableEq, Repr

/-- The state. The first five fields after `cfg` are the spec's state, whole (R24); `cfg` is the step's parameter (R12), which
no step writes; `inputs`, `resp` and `draws` are the model's own (assumption log, entries 1, 2, 4, 5). -/
structure State where
  /-- The configuration record the block is built with (R6, R7); a parameter, not state of the block. -/
  cfg : Cfg
  /-- `MODE.T` (R15). -/
  modeT : Transport
  /-- `RB[0..546]` (R13). -/
  rb : Memory
  /-- `ACC`, in normal form (R16). -/
  acc : Word
  /-- `ACCV` (R17). -/
  accv : Bool
  /-- `ERR`, the sticky fault cause (R18). -/
  err : BitVec 3
  /-- The host's moves not yet performed, oldest first (R10, R151). -/
  inputs : List HostMove
  /-- The response of the latest command (R53); none before the first command after reset. -/
  resp : Option Response
  /-- How many values have been drawn for `ACC` (R150). -/
  draws : Nat
deriving DecidableEq, Repr

/-- The block built with `cfg`, right after reset, with no move of the host waiting (R150). `ACC` is unspecified there:
DESIGN CHOICE 0, and no rule reads it while `ACCV = 0` (assumption log, entry 3). -/
def State.resetFor (cfg : Cfg) : State where
  cfg := cfg
  modeT := .wired
  rb := []
  acc := 0#32
  accv := false
  err := 0#3
  inputs := []
  resp := none
  draws := 0

/-- The machine right after reset, built with the reference configuration (assumption log, entry 2). -/
def State.reset : State := State.resetFor Config.ref

end Sys2Proof.Machine
end

