-- ==== Sys2Proof/Machine/Flags.lean ====
section
/-! DEFINITION. The block has no status flags or condition codes (R21). What there is of flags: the fault cause recorded in
`ERR` (R18, R130, R133) and the edge flags of the directional-pad ROM (R71, R72). -/
namespace Sys2Proof.Machine

/-- The cause codes of R130. -/
def Cause.code : Cause → BitVec 3
  | .illegalCommand => 1#3
  | .addressFault => 2#3
  | .lengthFault => 3#3
  | .sequenceFault => 4#3

/-- `if ERR = 0 then ERR <- c`: the first cause since reset is kept (R133). -/
def errAfter (err : BitVec 3) (c : Cause) : BitVec 3 := if err = 0#3 then c.code else err

/-- `NONE`, "no direction" (R71). -/
def EdgeFlags.clear : EdgeFlags := ⟨false, false, false, false⟩

/-- The edge flags `(up, down, left, right)` of a direction, the table of R71. -/
def directionFlags : Direction → EdgeFlags
  | .n => ⟨true, false, false, false⟩
  | .ne => ⟨true, false, false, true⟩
  | .e => ⟨false, false, false, true⟩
  | .se => ⟨false, true, false, true⟩
  | .s => ⟨false, true, false, false⟩
  | .sw => ⟨false, true, true, false⟩
  | .w => ⟨false, false, true, false⟩
  | .nw => ⟨true, false, true, false⟩

/-- `dpad_rom(n)`: entries 0 to 7 from `DPAD_MAP`, entries 8 to 15 hard zero (R72). -/
def dpadRom (cfg : Cfg) (n : Nibble) : EdgeFlags :=
  if h : n.toNat < 8 then directionFlags (cfg.dpadMap[n.toNat]) else EdgeFlags.clear

/-- The flags as `{r, l, d, u}`: bit 0 up, bit 1 down, bit 2 left, bit 3 right (R53, R73). -/
def EdgeFlags.payload (f : EdgeFlags) : BitVec 4 :=
  BitVec.ofBool f.right ++ BitVec.ofBool f.left ++ BitVec.ofBool f.down ++ BitVec.ofBool f.up

/-- `DPAD_ROM` as R19 counts it: 16 entries of 4 bits, entry `n` the flags of `dpad_rom(n)`. -/
def dpadRomTable (cfg : Cfg) : List (BitVec 4) :=
  (List.range 16).map fun n => (dpadRom cfg (BitVec.ofNat 4 n)).payload

end Sys2Proof.Machine
end

