-- ==== Sys2Proof/Machine/Ops.lean ====
section
/-! DEFINITION. The operations every command is written with: reading and writing the report buffer (R33, R34), responding
(R53), raising a fault (R133), the host's reset action (R150, R151), and taking the host's next move (R10). -/
namespace Sys2Proof.Machine

/-- What an address that is not listed reads as: 0x00, the reset and clear value of `RB` (R14, R39). -/
def unlistedByte : Byte := 0x00#8

/-- Every address of the list is above `lo`, and the addresses rise strictly; `none` is no bound. -/
def Memory.risingFrom : Option Nat → Memory → Bool
  | _, [] => true
  | none, (a, _) :: rest => Memory.risingFrom (some a) rest
  | some lo, (a, _) :: rest => decide (lo < a) && Memory.risingFrom (some a) rest

/-- The canonical form: addresses strictly rising, no entry equal to what an unlisted address reads as. -/
def Memory.wf (m : Memory) : Bool := Memory.risingFrom none m && m.all fun c => decide (c.2 ≠ unlistedByte)

/-- Every listed address is below `n`. -/
def Memory.below (n : Nat) (m : Memory) : Bool := m.all fun c => decide (c.1 < n)

/-- `RB[a]`. -/
def Memory.read : Memory → Nat → Byte
  | [], _ => unlistedByte
  | (k, v) :: rest, a => if k = a then v else Memory.read rest a

/-- `v` placed before the cells above its address, or nothing where `v` is what an unlisted address reads as. -/
def Memory.place (a : Nat) (v : Byte) (above : Memory) : Memory := if v = unlistedByte then above else (a, v) :: above

/-- `RB[a] <- v`, keeping the canonical form. -/
def Memory.write : Memory → Nat → Byte → Memory
  | [], a, v => Memory.place a v []
  | (k, w) :: rest, a, v =>
    if k = a then Memory.place a v rest
    else if a < k then Memory.place a v ((k, w) :: rest)
    else (k, w) :: Memory.write rest a v

/-- Byte stores in the order listed, each an offset from `base` and the byte stored there. -/
def Memory.writeList (m : Memory) (base : Nat) : List (Nat × Byte) → Memory
  | [] => m
  | (off, v) :: rest => Memory.writeList (Memory.write m (base + off) v) base rest

/-- The bytes of a 32-bit value, least significant first: the order of `MemWrite(a, 4, w)` (R34, R35). -/
def littleEndian (w : Word) : List (Nat × Byte) :=
  [(0, w.extractLsb' 0 8), (1, w.extractLsb' 8 8), (2, w.extractLsb' 16 8), (3, w.extractLsb' 24 8)]

/-- Every byte of `RB` 0x00: what reset, `RB.CLR` and `MODE.SET` leave (R14, R120, R121). -/
def Memory.cleared : Memory := []

/-- `MemRead(a, 1)` (R33). -/
def State.byteAt (s : State) (a : Nat) : Byte := Memory.read s.rb a

/-- The bytes `RB[0], ..., RB[n-1]`, in ascending order (R37, R104). -/
def State.leadingBytes (s : State) (n : Nat) : List Byte := (List.range n).map fun a => s.byteAt a

/-- `MODE.T <- t` (R15). -/
def State.withMode (s : State) (t : Transport) : State := { s with modeT := t }

/-- `RB` replaced whole. -/
def State.withRb (s : State) (m : Memory) : State := { s with rb := m }

/-- `ACC <- a`, the valid bit as it is (R106). -/
def State.withAcc (s : State) (a : Word) : State := { s with acc := a }

/-- `ACC <- a; ACCV <- 1` (R105, R108, R109). -/
def State.withNewAcc (s : State) (a : Word) : State := { s with acc := a, accv := true }

/-- `ERR` replaced (R18). -/
def State.withErr (s : State) (e : BitVec 3) : State := { s with err := e }

/-- The response slot replaced (R53). -/
def State.withResp (s : State) (r : Response) : State := { s with resp := some r }

/-- The host's moves that still wait. -/
def State.withInputs (s : State) (ms : List HostMove) : State := { s with inputs := ms }

/-- `MemWrite(a, 1, v)` (R34). -/
def State.writeByte (s : State) (a : Nat) (v : Byte) : State := s.withRb (Memory.write s.rb a v)

/-- `MemWrite(a, 4, w)`, little-endian (R34). -/
def State.writeWord (s : State) (a : Nat) (w : Word) : State := s.withRb (Memory.writeList s.rb a (littleEndian w))

/-- Byte stores at offsets from `base`, in the order listed. -/
def State.writeBytes (s : State) (base : Nat) (ws : List (Nat × Byte)) : State := s.withRb (Memory.writeList s.rb base ws)

/-- `for i = 0 .. 546: RB[i] <- 0x00` (R120, R121). -/
def State.clearRb (s : State) : State := s.withRb Memory.cleared

/-- `respond r`: the command ends with the state it has reached and its response (R53). -/
def respond (r : Response) (s : State) : Host.Outcome State Fault Refusal := .next (s.withResp r)

/-- Taking a fault, `raise c`: the first cause since reset is kept in `ERR`, the response carries this command's own cause,
nothing else changes, and the block goes on (R133). There is no return from one (R134). -/
def raise (c : Cause) (s : State) : Host.Outcome State Fault Refusal := respond (.fault c) (s.withErr (errAfter s.err c))

/-- The host's reset action (R150, R151): every piece of state to its reset value, `ACC` a free value, the configuration as it
is; the host's later moves still wait. -/
def hostReset (s : State) : State :=
  { State.resetFor s.cfg with acc := Config.accDraw s.draws, draws := s.draws + 1, inputs := s.inputs }

/-- The host's next move and the state in which it has been taken, or none where no move waits. -/
def takeMove (s : State) : Option (HostMove × State) :=
  match s.inputs with
  | [] => none
  | m :: rest => some (m, s.withInputs rest)

/-- The host presents `cw` as its next move. -/
def presentWord (s : State) (cw : CommandWord) : State := s.withInputs (.command cw :: s.inputs)

end Sys2Proof.Machine
end

