-- ==== Sys2Proof/Machine/Operands.lean ====
section
/-! DEFINITION. Operand forms: the address bound of `RB.WR` and `RB.RD`, the length bound of `CKSUM` (R58, R131), the base of
a trigger-effect field (R82), the bytes a trigger effect stores (R60, R81, R83 to R89), and the ROM address of the
directional pad (R62). -/
namespace Sys2Proof.Machine

/-- The logical length of `RB`, `OUT_LEN(MODE.T)` (R13). -/
def State.logicalLen (s : State) : Nat := Config.outLen s.modeT

/-- `a` is a valid address: `a < OUT_LEN(MODE.T)` (R30). -/
def validOffset (s : State) (a : Offset) : Bool := decide (a.toNat < s.logicalLen)

/-- `n` is a legal byte count of `CKSUM`: `n <= OUT_LEN(MODE.T)` (R108). -/
def validLength (s : State) (n : Offset) : Bool := decide (n.toNat ≤ s.logicalLen)

/-- The ROM address of the directional pad, `b[3:0]` (R62, R74). -/
def lowNibble (b : Byte) : Nibble := b.extractLsb' 0 4

/-- `te_base(g) = TE_BASE(MODE.T, g)` (R82). -/
def teBase (s : State) (g : Trigger) : Nat := s.cfg.teBase s.modeT g

/-- The source's tagged variant `TriggerEffect` (R80). -/
inductive TriggerEffect where
  | noResistance
  | continuousResistance (start force : Byte)
  | sectionResistance (start force : Byte)
  | extendedEffect (start : Byte) (keepBeyondRange : Bool) (beginForce middleForce endForce frequency : Byte)
  | calibrate
deriving DecidableEq, Repr

/-- The variant tag, 0 to 4 in the source's order (R80). -/
def TriggerEffect.tag : TriggerEffect → Fin 5
  | .noResistance => 0
  | .continuousResistance _ _ => 1
  | .sectionResistance _ _ => 2
  | .extendedEffect _ _ _ _ _ _ => 3
  | .calibrate => 4

/-- `TE_OP_ROM`: the opcode byte of each variant tag (R19, R81). -/
def teOpRom : Vector Byte 5 := #v[0x00#8, 0x01#8, 0x02#8, 0x26#8, 0xFC#8]

/-- The opcode byte of a variant (R81). -/
def TriggerEffect.opcode (e : TriggerEffect) : Byte := teOpRom[e.tag]

/-- The inverted start, `0xFF - start` (R86, R89). -/
def invertedStart (start : Byte) : Byte := 0xFF#8 - start

/-- The frequency byte, `max(1, freq div 2)` (R86, R89). -/
def frequencyByte (freq : Byte) : Byte := BitVec.ofNat 8 (max 1 (freq.toNat / 2))

/-- The bytes a variant stores besides its opcode, at their offsets from the field's base (R60, R83 to R88). A byte not listed
is left as it was (R90). -/
def TriggerEffect.parameterBytes (cfg : Cfg) : TriggerEffect → List (Nat × Byte)
  | .noResistance => [(1, 0x00#8), (2, 0x00#8)]
  | .continuousResistance start force => [(1, start), (2, force)]
  | .sectionResistance start force => [(1, start), (2, force)]
  | .extendedEffect start keep beginForce middleForce endForce frequency =>
    [(cfg.teXStartOff, invertedStart start)]
      ++ (if keep then [(cfg.teXKeepOff, cfg.teXKeepVal)] else [])
      ++ [(cfg.teXBeginOff, beginForce), (cfg.teXMidOff, middleForce), (cfg.teXEndOff, endForce),
          (cfg.teXFreqOff, frequencyByte frequency)]
  | .calibrate => []

/-- All the bytes a variant stores: the opcode at +0 and its parameters (R60). -/
def TriggerEffect.bytes (cfg : Cfg) (e : TriggerEffect) : List (Nat × Byte) := (0, e.opcode) :: e.parameterBytes cfg

/-- Encoding a trigger effect: its bytes stored at `te_base(g)`, and `Ok` (R83 to R88, R92, R93). -/
def encodeTrigger (g : Trigger) (e : TriggerEffect) (s : State) : Host.Outcome State Fault Refusal :=
  respond .ok (s.writeBytes (teBase s g) (e.bytes s.cfg))

end Sys2Proof.Machine
end

