-- ==== Sys2Proof/Machine/Buffer.lean ====
section
/-! DEFINITION. The report-buffer and mode commands: `MODE.SET`, `RB.CLR`, `RB.WR`, `RB.RD` (43_buffer_and_mode.md). -/
namespace Sys2Proof.Machine

/-- `MODE.SET t`: the transport, and a cleared buffer whatever the transport was (R120). -/
def execModeSet (t : Transport) (s : State) : Host.Outcome State Fault Refusal := respond .ok (s.withMode t).clearRb

/-- `RB.CLR` (R121). -/
def execRbClr (s : State) : Host.Outcome State Fault Refusal := respond .ok s.clearRb

/-- `RB.WR a, d` (R122). -/
def execRbWr (a : Offset) (d : Byte) (s : State) : Host.Outcome State Fault Refusal :=
  if validOffset s a then respond .ok (s.writeByte a.toNat d) else raise .addressFault s

/-- `RB.RD a` (R123). -/
def execRbRd (a : Offset) (s : State) : Host.Outcome State Fault Refusal :=
  if validOffset s a then respond (.byte (s.byteAt a.toNat)) s else raise .addressFault s

end Sys2Proof.Machine
end

