-- ==== Sys2Proof/Machine/Crc.lean ====
section
/-! DEFINITION. The CRC functions of R101 to R104, and the equivalent least-significant-bit-first form with its lookup table
(R20, R114), which no command uses. -/
namespace Sys2Proof.Machine

/-- One shift of R101: the bit shifted out of bit 31 is dropped, and the polynomial added where it was 1. -/
def crcShift (poly acc : Word) : Word := if acc.getLsbD 31 then (acc <<< 1) ^^^ poly else acc <<< 1

/-- The shift repeated. -/
def crcShifts (poly : Word) : Nat → Word → Word
  | 0, acc => acc
  | n + 1, acc => crcShifts poly n (crcShift poly acc)

/-- The input byte as the accumulator takes it: reflected where `CRC_REFIN = 1` (R101). -/
def crcInput (cfg : Cfg) (b : Byte) : Byte := if cfg.crcRefIn then b.reverse else b

/-- `crc_step(acc, b)` (R101). -/
def crcStep (cfg : Cfg) (acc : Word) (b : Byte) : Word :=
  crcShifts cfg.crcPoly 8 (acc ^^^ ((crcInput cfg b).setWidth 32 <<< 24))

/-- `crc_start()`: the seed byte, where there is one, absorbed before the buffer (R102). -/
def crcStart (cfg : Cfg) : Word :=
  match cfg.crcSeed with
  | none => cfg.crcInit
  | some seed => crcStep cfg cfg.crcInit seed

/-- `crc_final(acc)` (R103). -/
def crcFinal (cfg : Cfg) (acc : Word) : Word := (if cfg.crcRefOut then acc.reverse else acc) ^^^ cfg.crcXorOut

/-- `k w`, both ways of the test (`settled_eq`). The test makes an evaluator compute `w` before it goes on, so that a long fold is
evaluated byte by byte, and it keeps a conversion check from unfolding a fold over an unknown start. -/
def settled {α : Type} (w : Word) (k : Word → α) : α := if w.toNat = 0 then k w else k w

/-- The bytes absorbed in order, offset 0 first (R104); a plain fold of `crc_step` (`crcAbsorb_eq_foldl`). -/
def crcAbsorb (cfg : Cfg) : List Byte → Word → Word
  | [], acc => acc
  | b :: bs, acc => settled (crcStep cfg acc b) (crcAbsorb cfg bs)

/-- The accumulator after the bytes, from `crc_start()` (R104). -/
def crcFold (cfg : Cfg) (bs : List Byte) : Word := settled (crcStart cfg) (crcAbsorb cfg bs)

/-- The integrity code of a list of bytes (R104). -/
def crcOf (cfg : Cfg) (bs : List Byte) : Word := crcFinal cfg (crcFold cfg bs)

/-- `fold(n)` over `RB[0 .. n-1]` (R104). -/
def State.fold (s : State) (n : Nat) : Word := crcFold s.cfg (s.leadingBytes n)

/-- `checksum(n)`, the source's `checksum(buffer, length)` with `buffer = RB` (R104). -/
def State.checksum (s : State) (n : Nat) : Word := crcFinal s.cfg (s.fold n)

/-- One shift of the least-significant-bit-first form (R114). -/
def crcShiftR (polyR acc : Word) : Word := if acc.getLsbD 0 then (acc >>> 1) ^^^ polyR else acc >>> 1

/-- That shift repeated. -/
def crcShiftsR (polyR : Word) : Nat → Word → Word
  | 0, acc => acc
  | n + 1, acc => crcShiftsR polyR n (crcShiftR polyR acc)

/-- `step_r(R, b)` (R114). -/
def crcStepR (cfg : Cfg) (r : Word) (b : Byte) : Word := crcShiftsR cfg.crcPoly.reverse 8 (r ^^^ b.setWidth 32)

/-- `final_r(R)` (R114). -/
def crcFinalR (cfg : Cfg) (r : Word) : Word := r ^^^ cfg.crcXorOut

/-- `TAB[k] = step_r(zext_32(k), 0)` (R20, R114). -/
def crcTable (cfg : Cfg) (k : Byte) : Word := crcStepR cfg (k.setWidth 32) 0#8

/-- `step_r` through the table: `TAB[(R xor b)[7:0]] xor (R >> 8)` (R114). -/
def crcStepTable (cfg : Cfg) (r : Word) (b : Byte) : Word :=
  crcTable cfg ((r ^^^ b.setWidth 32).extractLsb' 0 8) ^^^ (r >>> 8)

end Sys2Proof.Machine
end

