-- ==== Sys2Proof/Machine/Checksum.lean ====
section
/-! DEFINITION. The checksum commands: `CRC.INIT`, `CRC.BYTE`, `CRC.FIN`, `CKSUM`, `SEAL` (42_checksum.md). -/
namespace Sys2Proof.Machine

/-- `CRC.INIT` (R105). -/
def execCrcInit (s : State) : Host.Outcome State Fault Refusal := respond .ok (s.withNewAcc (crcStart s.cfg))

/-- `CRC.BYTE d` (R106). -/
def execCrcByte (d : Byte) (s : State) : Host.Outcome State Fault Refusal :=
  if s.accv then respond .ok (s.withAcc (crcStep s.cfg s.acc d)) else raise .sequenceFault s

/-- `CRC.FIN`: the accumulator keeps its value (R107). -/
def execCrcFin (s : State) : Host.Outcome State Fault Refusal :=
  if s.accv then respond (.word (crcFinal s.cfg s.acc)) s else raise .sequenceFault s

/-- `CKSUM n`: the accumulator is left holding `fold(n)` (R108). -/
def execCksum (n : Offset) (s : State) : Host.Outcome State Fault Refusal :=
  if validLength s n then respond (.word (s.checksum n.toNat)) (s.withNewAcc (s.fold n.toNat)) else raise .lengthFault s

/-- `SEAL`: in wireless mode the checksum of `[0, 74)` stored little-endian at 74; in wired mode nothing but `Ok` (R109). -/
def execSeal (s : State) : Host.Outcome State Fault Refusal :=
  match s.modeT with
  | .wirelessRadio =>
    respond (.word (s.checksum Config.cksLen))
      ((s.withNewAcc (s.fold Config.cksLen)).writeWord Config.cksOff (s.checksum Config.cksLen))
  | .wired => respond .ok s

end Sys2Proof.Machine
end

