-- ==== Sys2Proof/Machine/Dpad.lean ====
section
/-! DEFINITION. The directional-pad command `DPAD.DEC` (40_dpad_rom.md). -/
namespace Sys2Proof.Machine

/-- `DPAD.DEC b`: the ROM entry of the low nibble; no state read or written (R74). -/
def execDpadDec (b : Byte) (s : State) : Host.Outcome State Fault Refusal :=
  respond (.dpad (dpadRom s.cfg (lowNibble b))) s

end Sys2Proof.Machine
end

