-- ==== Sys2Proof/Machine/Trigger.lean ====
section
/-! DEFINITION. The trigger-effect commands `TE.NONE`, `TE.CONT`, `TE.SECT`, `TE.EXT`, `TE.CAL` (41_trigger_effect.md). -/
namespace Sys2Proof.Machine

/-- `TE.NONE g`: three bytes 0x00 (R83). -/
def execTeNone (g : Trigger) (s : State) : Host.Outcome State Fault Refusal := encodeTrigger g .noResistance s

/-- `TE.CONT g, start, force` (R84). -/
def execTeCont (g : Trigger) (start force : Byte) (s : State) : Host.Outcome State Fault Refusal :=
  encodeTrigger g (.continuousResistance start force) s

/-- `TE.SECT g, start, force` (R85). -/
def execTeSect (g : Trigger) (start force : Byte) (s : State) : Host.Outcome State Fault Refusal :=
  encodeTrigger g (.sectionResistance start force) s

/-- `TE.EXT g, start, keep, begin, middle, end, freq` (R86). -/
def execTeExt (g : Trigger) (start : Byte) (keep : Bool) (beginF middleF endF freq : Byte) (s : State) :
    Host.Outcome State Fault Refusal :=
  encodeTrigger g (.extendedEffect start keep beginF middleF endF freq) s

/-- `TE.CAL g`: the opcode byte only (R88). -/
def execTeCal (g : Trigger) (s : State) : Host.Outcome State Fault Refusal := encodeTrigger g .calibrate s

end Sys2Proof.Machine
end

