-- ==== Sys2Proof/Machine/Dispatch.lean ====
section
/-! DEFINITION. The dispatch: one arm per command, each one direct call of that command's meaning. -/
namespace Sys2Proof.Machine

def exec (i : Instr) (s : State) : Host.Outcome State Fault Refusal :=
  match i with
  | .modeSet t => Sys2Proof.Machine.execModeSet t s
  | .rbClr => Sys2Proof.Machine.execRbClr s
  | .rbWr a d => Sys2Proof.Machine.execRbWr a d s
  | .rbRd a => Sys2Proof.Machine.execRbRd a s
  | .crcInit => Sys2Proof.Machine.execCrcInit s
  | .crcByte d => Sys2Proof.Machine.execCrcByte d s
  | .crcFin => Sys2Proof.Machine.execCrcFin s
  | .cksum n => Sys2Proof.Machine.execCksum n s
  | .sealReport => Sys2Proof.Machine.execSeal s
  | .dpadDec b => Sys2Proof.Machine.execDpadDec b s
  | .teNone g => Sys2Proof.Machine.execTeNone g s
  | .teCont g start force => Sys2Proof.Machine.execTeCont g start force s
  | .teSect g start force => Sys2Proof.Machine.execTeSect g start force s
  | .teExt g start keep beginF middleF endF freq => Sys2Proof.Machine.execTeExt g start keep beginF middleF endF freq s
  | .teCal g => Sys2Proof.Machine.execTeCal g s

end Sys2Proof.Machine
end

