-- ==== Sys2Proof/Machine/Port.lean ====
section
/-! DEFINITION. What the block does with a move of the host: running a command word (R132), or reset (R151). -/
namespace Sys2Proof.Machine

/-- A command word is decoded first; an illegal one raises `IllegalCommand` and no operand is examined (R57, R132);
otherwise the command runs. -/
def runWord (cw : CommandWord) (s : State) : Host.Outcome State Fault Refusal :=
  match decode cw with
  | .ok i => exec i s
  | .error _ => raise .illegalCommand s

/-- The host's move, performed whole before the next one (R38, R39, R151). -/
def performMove (m : HostMove) (s : State) : Host.Outcome State Fault Refusal :=
  match m with
  | .command cw => runWord cw s
  | .reset => .next (hostReset s)

end Sys2Proof.Machine
end

