-- ==== Sys2Proof/Machine/Step.lean ====
section
/-! DEFINITION. One step of the machine: the host's next move. -/
namespace Sys2Proof.Machine

/-- One step: the host's next move is performed (R10, R12, R151); where no move waits nothing happens (R137). -/
def step (s : State) : Host.Outcome State Fault Refusal :=
  match takeMove s with
  | none => .next s
  | some (m, s') => performMove m s'

/-- The host presents the instruction with bits `w` as its next move (assumption log, entry 1). -/
def State.withFetchWord (s : State) (nbits w : Nat) : State := presentWord s (BitVec.ofNat 64 (w % 2 ^ nbits))

end Sys2Proof.Machine
end

