-- ==== Sys2Proof/Machine/Assembler.lean ====
section
/-! DEFINITION. The assembler's text form (R64): one command a line, the mnemonic of R54, then its operands separated by
commas in the order of R56; decimal or `0x` numbers; `WIRED` and `WIRELESS`; a comment from a semicolon to the line's end.
What R64 leaves open (blanks, the case of hexadecimal digits, empty lines, over-large numbers) is in the assumption log, entry 6. -/
namespace Sys2Proof.Machine

/-- A blank between the parts of a line. -/
def asmBlank (c : Char) : Bool := c == ' ' || c == '\t'

/-- The line without its comment (R64). -/
def asmUncomment (l : List Char) : List Char := l.takeWhile fun c => c != ';'

/-- Without the blanks at both ends. -/
def asmTrim (l : List Char) : List Char := ((l.dropWhile asmBlank).reverse.dropWhile asmBlank).reverse

/-- The parts between commas; the first list is the part being read. -/
def asmSplit : List Char → List (List Char)
  | [] => [[]]
  | c :: rest =>
    match asmSplit rest with
    | [] => [[c]]
    | part :: parts => if c == ',' then [] :: part :: parts else (c :: part) :: parts

/-- The value of a digit of a base up to 16. -/
def asmDigit (base : Nat) (c : Char) : Option Nat :=
  let v :=
    if '0'.toNat ≤ c.toNat ∧ c.toNat ≤ '9'.toNat then some (c.toNat - '0'.toNat)
    else if 'A'.toNat ≤ c.toNat ∧ c.toNat ≤ 'F'.toNat then some (c.toNat - 'A'.toNat + 10)
    else if 'a'.toNat ≤ c.toNat ∧ c.toNat ≤ 'f'.toNat then some (c.toNat - 'a'.toNat + 10)
    else none
  v.bind fun d => if d < base then some d else none

/-- The value of digits in a base, after the value of those before them. -/
def asmDigits (base : Nat) : Nat → List Char → Option Nat
  | acc, [] => some acc
  | acc, c :: rest => (asmDigit base c).bind fun d => asmDigits base (acc * base + d) rest

/-- A number: decimal, or hexadecimal with `0x` (R64). -/
def asmNumber : List Char → Option Nat
  | [] => none
  | ['0', 'x'] => none
  | '0' :: 'x' :: ds => asmDigits 16 0 ds
  | ds => asmDigits 10 0 ds

/-- A number that its field can hold (R51); a larger one is refused, never cut (DESIGN CHOICE, assumption log, entry 6). -/
def asmField (w : Nat) (l : List Char) : Option (BitVec w) :=
  (asmNumber l).bind fun n => if n < 2 ^ w then some (BitVec.ofNat w n) else none

/-- `WIRED` or `WIRELESS` (R64). -/
def asmTransport (l : List Char) : Option Transport :=
  if l = ['W', 'I', 'R', 'E', 'D'] then some .wired
  else if l = ['W', 'I', 'R', 'E', 'L', 'E', 'S', 'S'] then some .wirelessRadio
  else none

/-- A trigger, `0` or `1` (R64). -/
def asmTrigger (l : List Char) : Option Trigger :=
  if l = ['0'] then some .first else if l = ['1'] then some .second else none

/-- The flag `k` of `TE.EXT`, a one-bit number. -/
def asmFlag (l : List Char) : Option Bool := (asmField 1 l).map fun k => k.getLsbD 0

/-- The fifteen mnemonics of R54, with what each one's operands build (R56). -/
def asmCommand (mnemonic : List Char) (args : List (List Char)) : Option Instr :=
  match String.ofList mnemonic, args with
  | "MODE.SET", [t] => (asmTransport t).map .modeSet
  | "RB.CLR", [] => some .rbClr
  | "RB.WR", [a, d] => (asmField 10 a).bind fun a => (asmField 8 d).map fun d => .rbWr a d
  | "RB.RD", [a] => (asmField 10 a).map .rbRd
  | "CRC.INIT", [] => some .crcInit
  | "CRC.BYTE", [d] => (asmField 8 d).map .crcByte
  | "CRC.FIN", [] => some .crcFin
  | "CKSUM", [n] => (asmField 10 n).map .cksum
  | "SEAL", [] => some .sealReport
  | "DPAD.DEC", [b] => (asmField 8 b).map .dpadDec
  | "TE.NONE", [g] => (asmTrigger g).map .teNone
  | "TE.CONT", [g, s, f] =>
    (asmTrigger g).bind fun g => (asmField 8 s).bind fun s => (asmField 8 f).map fun f => .teCont g s f
  | "TE.SECT", [g, s, f] =>
    (asmTrigger g).bind fun g => (asmField 8 s).bind fun s => (asmField 8 f).map fun f => .teSect g s f
  | "TE.EXT", [g, s, k, b, m, e, q] =>
    (asmTrigger g).bind fun g => (asmField 8 s).bind fun s => (asmFlag k).bind fun k => (asmField 8 b).bind fun b =>
      (asmField 8 m).bind fun m => (asmField 8 e).bind fun e => (asmField 8 q).map fun q => .teExt g s k b m e q
  | "TE.CAL", [g] => (asmTrigger g).map .teCal
  | _, _ => none

/-- The operands of a line: none, or the parts between commas. -/
def asmOperands (l : List Char) : List (List Char) := if asmTrim l = [] then [] else (asmSplit l).map asmTrim

/-- One line: `some none` where it holds no command (blank, or a comment only), `none` where it is not assembler text. -/
def asmLine (l : List Char) : Option (Option Instr) :=
  let text := asmTrim (asmUncomment l)
  if text = [] then some none
  else (asmCommand (text.takeWhile fun c => !asmBlank c) (asmOperands (text.dropWhile fun c => !asmBlank c))).map some

/-- The commands of a program, one line after the other (R64: every line is one command word). -/
def asmProgram : List (List Char) → Option (List Instr)
  | [] => some []
  | l :: rest => (asmLine l).bind fun i => (asmProgram rest).map fun is => i.toList ++ is

/-- The command words of a program's lines, which the host presents in order. -/
def assemble (lines : List (List Char)) : Option (List CommandWord) := (asmProgram lines).map fun is => is.map encode

end Sys2Proof.Machine
end

