-- ==== Sys2Proof/Machine/ResponseForm.lean ====
section
/-! DEFINITION. The binary form of a response, 35 bits `{KIND[2:0], PAYLOAD[31:0]}` (R53). -/
namespace Sys2Proof.Machine

/-- `KIND`: 0 Ok, 1 Byte, 2 Word, 3 Dpad, 7 Fault; 4 to 6 never occur. -/
def Response.kind : Response → BitVec 3
  | .ok => 0#3
  | .byte _ => 1#3
  | .word _ => 2#3
  | .dpad _ => 3#3
  | .fault _ => 7#3

/-- `PAYLOAD`. -/
def Response.payload : Response → Word
  | .ok => 0#32
  | .byte v => v.setWidth 32
  | .word v => v
  | .dpad f => f.payload.setWidth 32
  | .fault c => c.code.setWidth 32

/-- `{KIND, PAYLOAD}`. -/
def Response.bits (r : Response) : ResponseWord := r.kind ++ r.payload

end Sys2Proof.Machine
end

