-- ==== Sys2Proof/Safety.lean ====
section
/-! DEFINITION. What counts as a safe run, and the notions claims are stated with: the state invariant (R13, R18, R24, R124),
observational equality (R24), a report whose stored checksum is current (R154), sequences of commands (R110, R153), and what a
command leaves alone. -/
namespace Sys2Proof.Machine

/-- "No fault recorded", the safety predicate of R142. -/
abbrev State.NoFault (s : State) : Prop := s.err = 0#3

/-- A `Fault` response is never given without a cause recorded in `ERR` (R133). -/
def State.faultRecorded (s : State) : Bool :=
  match s.resp with
  | some (.fault _) => decide (s.err ≠ 0#3)
  | _ => true

/-- The invariant of every step: the buffer's list is canonical; nothing is listed at or above the report's logical length, so
`RB[48 .. 546]` is zero in wired mode (R13, R124); `ERR` is 0 to 4 (R18); a `Fault` response has its cause recorded (R133). -/
abbrev State.Inv (s : State) : Prop :=
  Memory.wf s.rb = true ∧ Memory.below s.logicalLen s.rb = true ∧ s.err.toNat ≤ 4 ∧ s.faultRecorded = true

/-- Observational equality of two states of one block: they agree on `MODE.T`, on `RB`, on `ACCV`, on `ERR`, and, where
`ACCV = 1`, on `ACC` (R24); and on what the model adds: the configuration, the host's waiting moves and the response. -/
structure State.ObsEq (s t : State) : Prop where
  cfg : s.cfg = t.cfg
  modeT : s.modeT = t.modeT
  rb : s.rb = t.rb
  accv : s.accv = t.accv
  err : s.err = t.err
  acc : s.accv = true → s.acc = t.acc
  inputs : s.inputs = t.inputs
  resp : s.resp = t.resp

/-- The report's bytes agree at every address, and so does the transport. -/
structure State.SameReport (s t : State) : Prop where
  modeT : t.modeT = s.modeT
  bytes : ∀ a, t.byteAt a = s.byteAt a

/-- The checksum unit's registers are the same. -/
structure State.SameAcc (s t : State) : Prop where
  acc : t.acc = s.acc
  accv : t.accv = s.accv

/-- What no command writes: the configuration, the host's waiting moves, the draws (R12, R19, R150). -/
structure State.SameHost (s t : State) : Prop where
  cfg : t.cfg = s.cfg
  inputs : t.inputs = s.inputs
  draws : t.draws = s.draws

/-- From `s` to `t` the fault `c` has been taken, and nothing else has happened (R133). -/
structure State.FaultTaken (s t : State) (c : Cause) : Prop where
  resp : t.resp = some (.fault c)
  err : t.err = if s.err = 0#3 then c.code else s.err
  report : State.SameReport s t
  acc : State.SameAcc s t
  host : State.SameHost s t

/-- The 32-bit value stored in the checksum field, `{RB[77], RB[76], RB[75], RB[74]}` (R35, R111). -/
def State.storedChecksum (s : State) : Word := s.byteAt 77 ++ s.byteAt 76 ++ s.byteAt 75 ++ s.byteAt 74

/-- The stored checksum is the checksum of `[0, 74)` as those bytes are now. The block does not track it (R116, R154). -/
abbrev State.SealCurrent (s : State) : Prop := s.storedChecksum = s.checksum Config.cksLen

/-- A sequence of commands, each run in the state the one before it left (R39, R110). -/
def execAll : List Instr → State → Host.Outcome State Fault Refusal
  | [], s => .next s
  | i :: rest, s =>
    match exec i s with
    | .next t => execAll rest t
    | .fault r => .fault r
    | .refused r => .refused r

/-- A run of commands after reset, and its success: `ERR = 0` at its end (R153). -/
def successfulRun (cfg : Cfg) (cmds : List Instr) : Prop := ∃ t, execAll cmds (State.resetFor cfg) = .next t ∧ t.NoFault

/-- The states a block built with `cfg` can reach: from reset, by steps, with the host adding any move to those that wait at any
time (R10, R124, R151). -/
inductive Reachable (cfg : Cfg) : State → Prop where
  | reset : Reachable cfg (State.resetFor cfg)
  | present {s : State} (m : HostMove) : Reachable cfg s → Reachable cfg (s.withInputs (s.inputs ++ [m]))
  | step {s t : State} : Reachable cfg s → step s = .next t → Reachable cfg t

/-- The trigger of a `TE.*` command (R80, R92). -/
def triggerOf : Instr → Option Trigger
  | .modeSet _ => none
  | .rbClr => none
  | .rbWr _ _ => none
  | .rbRd _ => none
  | .crcInit => none
  | .crcByte _ => none
  | .crcFin => none
  | .cksum _ => none
  | .sealReport => none
  | .dpadDec _ => none
  | .teNone g => some g
  | .teCont g _ _ => some g
  | .teSect g _ _ => some g
  | .teExt g _ _ _ _ _ _ => some g
  | .teCal g => some g

/-- The other trigger. -/
def otherTrigger : Trigger → Trigger
  | .first => .second
  | .second => .first

/-- The reserved bits of each listed `OP`, from the formats of R50 and the fields R57 reserves for the `TE.*` commands; none for
an `OP` that R54 does not list. -/
def reservedBitsOf (op : Byte) : Option CommandWord :=
  match op.toNat with
  | 0x01 => some 0x00FFFFFFFFFFFFFE#64
  | 0x02 => some 0x00FFFFFFFFFFFFFF#64
  | 0x03 => some 0x00FFFFFFFFFC0000#64
  | 0x04 => some 0x00FFFFFFFFFC00FF#64
  | 0x10 => some 0x00FFFFFFFFFFFFFF#64
  | 0x11 => some 0x00FFFFFFFFFFFF00#64
  | 0x12 => some 0x00FFFFFFFFFFFFFF#64
  | 0x13 => some 0x00FFFFFFFFFC00FF#64
  | 0x14 => some 0x00FFFFFFFFFFFFFF#64
  | 0x20 => some 0x00FFFFFFFFFFFF00#64
  | 0x30 => some 0x007FFFFFFFFFFFFF#64
  | 0x31 => some 0x007F0000FFFFFFFF#64
  | 0x32 => some 0x007F0000FFFFFFFF#64
  | 0x33 => some 0x007F0000000000FE#64
  | 0x34 => some 0x007FFFFFFFFFFFFF#64
  | _ => none

end Sys2Proof.Machine
end

