-- ==== Sys2Proof/Certificates/Slice0/Obligations.lean ====
section
/-! DEFINITION. The statements for the provers, each a proposition; the docstring names the rule of spec/ it formalises. -/
open Sys2Proof Sys2Proof.Machine

section Encoding

/-- R52, R56: decoding the word of a command gives the command back, for every command and every operand. -/
def Obligations.DecodeOfEncode : Prop := ∀ i : Instr, decode (encode i) = .ok i

/-- R52 (one-to-one): a word that decodes to a command is that command's word, so no two words mean one command. -/
def Obligations.EncodeOfDecode : Prop := ∀ (cw : CommandWord) (i : Instr), decode cw = .ok i → encode i = cw

/-- R55, row by row: a word is the command of the row exactly when `cw and MASK = MATCH`. -/
def Obligations.DecodeIsMatchAndMask : Prop :=
  ∀ cw : CommandWord,
    ((∃ t, decode cw = .ok (.modeSet t)) ↔ cw &&& 0xFFFFFFFFFFFFFFFE#64 = 0x0100000000000000#64)
    ∧ (decode cw = .ok .rbClr ↔ cw &&& 0xFFFFFFFFFFFFFFFF#64 = 0x0200000000000000#64)
    ∧ ((∃ a d, decode cw = .ok (.rbWr a d)) ↔ cw &&& 0xFFFFFFFFFFFC0000#64 = 0x0300000000000000#64)
    ∧ ((∃ a, decode cw = .ok (.rbRd a)) ↔ cw &&& 0xFFFFFFFFFFFC00FF#64 = 0x0400000000000000#64)
    ∧ (decode cw = .ok .crcInit ↔ cw &&& 0xFFFFFFFFFFFFFFFF#64 = 0x1000000000000000#64)
    ∧ ((∃ d, decode cw = .ok (.crcByte d)) ↔ cw &&& 0xFFFFFFFFFFFFFF00#64 = 0x1100000000000000#64)
    ∧ (decode cw = .ok .crcFin ↔ cw &&& 0xFFFFFFFFFFFFFFFF#64 = 0x1200000000000000#64)
    ∧ ((∃ n, decode cw = .ok (.cksum n)) ↔ cw &&& 0xFFFFFFFFFFFC00FF#64 = 0x1300000000000000#64)
    ∧ (decode cw = .ok .sealReport ↔ cw &&& 0xFFFFFFFFFFFFFFFF#64 = 0x1400000000000000#64)
    ∧ ((∃ b, decode cw = .ok (.dpadDec b)) ↔ cw &&& 0xFFFFFFFFFFFFFF00#64 = 0x2000000000000000#64)
    ∧ ((∃ g, decode cw = .ok (.teNone g)) ↔ cw &&& 0xFF7FFFFFFFFFFFFF#64 = 0x3000000000000000#64)
    ∧ ((∃ g s f, decode cw = .ok (.teCont g s f)) ↔ cw &&& 0xFF7F0000FFFFFFFF#64 = 0x3100000000000000#64)
    ∧ ((∃ g s f, decode cw = .ok (.teSect g s f)) ↔ cw &&& 0xFF7F0000FFFFFFFF#64 = 0x3200000000000000#64)
    ∧ ((∃ g s k b m e q, decode cw = .ok (.teExt g s k b m e q)) ↔ cw &&& 0xFF7F0000000000FE#64 = 0x3300000000000000#64)
    ∧ ((∃ g, decode cw = .ok (.teCal g)) ↔ cw &&& 0xFF7FFFFFFFFFFFFF#64 = 0x3400000000000000#64)

/-- R56: the operand assembly, all reserved bits 0, and its three examples. -/
def Obligations.OperandAssembly : Prop :=
  (∀ t : Transport, encode (.modeSet t) = 0x01#64 <<< 56 ||| t.bit.setWidth 64)
  ∧ encode .rbClr = 0x02#64 <<< 56
  ∧ (∀ (a : Offset) (d : Byte), encode (.rbWr a d) = 0x03#64 <<< 56 ||| a.setWidth 64 <<< 8 ||| d.setWidth 64)
  ∧ (∀ a : Offset, encode (.rbRd a) = 0x04#64 <<< 56 ||| a.setWidth 64 <<< 8)
  ∧ encode .crcInit = 0x10#64 <<< 56
  ∧ (∀ d : Byte, encode (.crcByte d) = 0x11#64 <<< 56 ||| d.setWidth 64)
  ∧ encode .crcFin = 0x12#64 <<< 56
  ∧ (∀ n : Offset, encode (.cksum n) = 0x13#64 <<< 56 ||| n.setWidth 64 <<< 8)
  ∧ encode .sealReport = 0x14#64 <<< 56
  ∧ (∀ b : Byte, encode (.dpadDec b) = 0x20#64 <<< 56 ||| b.setWidth 64)
  ∧ (∀ g : Trigger, encode (.teNone g) = 0x30#64 <<< 56 ||| g.bit.setWidth 64 <<< 55)
  ∧ (∀ (g : Trigger) (s f : Byte), encode (.teCont g s f)
      = 0x31#64 <<< 56 ||| g.bit.setWidth 64 <<< 55 ||| s.setWidth 64 <<< 40 ||| f.setWidth 64 <<< 32)
  ∧ (∀ (g : Trigger) (s f : Byte), encode (.teSect g s f)
      = 0x32#64 <<< 56 ||| g.bit.setWidth 64 <<< 55 ||| s.setWidth 64 <<< 40 ||| f.setWidth 64 <<< 32)
  ∧ (∀ (g : Trigger) (s : Byte) (k : Bool) (b m e q : Byte), encode (.teExt g s k b m e q)
      = 0x33#64 <<< 56 ||| g.bit.setWidth 64 <<< 55 ||| s.setWidth 64 <<< 40 ||| b.setWidth 64 <<< 32
        ||| m.setWidth 64 <<< 24 ||| e.setWidth 64 <<< 16 ||| q.setWidth 64 <<< 8 ||| (BitVec.ofBool k).setWidth 64)
  ∧ (∀ g : Trigger, encode (.teCal g) = 0x34#64 <<< 56 ||| g.bit.setWidth 64 <<< 55)
  ∧ encode (.teCont .first 10#8 20#8) = 0x31000A1400000000#64
  ∧ encode (.rbWr 74#10 0xA9#8) = 0x0300000000004AA9#64
  ∧ encode (.cksum 74#10) = 0x1300000000004A00#64

/-- R57: a word is illegal in exactly two ways, an `OP` that is not listed or a reserved bit of its format; it raises
`IllegalCommand` and changes no state other than `ERR`. -/
def Obligations.IllegalWords : Prop :=
  (∀ (cw : CommandWord) (e : DecodeReject), decode cw = .error e ↔
    match reservedBitsOf (fieldOp cw) with
    | none => e = .unknownOp (fieldOp cw)
    | some m => cw &&& m ≠ 0#64 ∧ e = .reservedBits (fieldOp cw))
  ∧ ∀ (cw : CommandWord) (e : DecodeReject) (s : State), decode cw = .error e →
    ∃ t, runWord cw s = .next t ∧ State.FaultTaken s t .illegalCommand

/-- 95_test_vectors.md section 2.1: some of its words, legal and illegal. -/
def Obligations.SpecWordsDecode : Prop :=
  decode 0x0100000000000001#64 = .ok (.modeSet .wirelessRadio)
  ∧ decode 0x0400000000022200#64 = .ok (.rbRd 546#10)
  ∧ decode 0x1100000000000031#64 = .ok (.crcByte 0x31#8)
  ∧ decode 0x2000000000000083#64 = .ok (.dpadDec 0x83#8)
  ∧ decode 0x320040FF00000000#64 = .ok (.teSect .first 0x40#8 0xFF#8)
  ∧ decode 0x3380203040500901#64 = .ok (.teExt .second 0x20#8 true 0x30#8 0x40#8 0x50#8 9#8)
  ∧ decode 0x3500000000000000#64 = .error (.unknownOp 0x35#8)
  ∧ decode 0x1300000000040000#64 = .error (.reservedBits 0x13#8)

/-- R53: every command word yields exactly one response, and a response's binary form is `{KIND, PAYLOAD}` with the kinds and
payloads of the rule, by which responses can be told apart. -/
def Obligations.ResponseBinaryForm : Prop :=
  (∀ (s : State) (cw : CommandWord) (rest : List HostMove), s.inputs = .command cw :: rest →
    ∃ t r, step s = .next t ∧ t.resp = some r ∧ t.inputs = rest)
  ∧ (∀ r : Response, r.bits.extractLsb' 32 3 = r.kind ∧ r.bits.extractLsb' 0 32 = r.payload
      ∧ r.kind ≠ 4#3 ∧ r.kind ≠ 5#3 ∧ r.kind ≠ 6#3)
  ∧ (∀ r r' : Response, r.bits = r'.bits → r = r')
  ∧ Response.bits .ok = 0#35
  ∧ (∀ v : Byte, (Response.byte v).kind = 1#3 ∧ (Response.byte v).payload.toNat = v.toNat)
  ∧ (∀ v : Word, (Response.word v).kind = 2#3 ∧ (Response.word v).payload = v)
  ∧ (∀ f : EdgeFlags, (Response.dpad f).kind = 3#3
      ∧ (Response.dpad f).payload.toNat = f.up.toNat + 2 * f.down.toNat + 4 * f.left.toNat + 8 * f.right.toNat)
  ∧ (∀ c : Cause, (Response.fault c).kind = 7#3 ∧ (Response.fault c).payload.toNat = c.code.toNat
      ∧ 1 ≤ c.code.toNat ∧ c.code.toNat ≤ 4)

/-- R64: lines of assembler text from 95_test_vectors.md section 2.1 and their words; a comment; and the
model's choice (DESIGN CHOICE, assumption log, entry 6) to refuse a line whose number is too large for its field, where R56 read
literally would shift it into other bits, and to give no command for a line that is empty or a comment only. -/
def Obligations.AssemblerText : Prop :=
  assemble ["MODE.SET WIRELESS".toList, "RB.WR 74, 0xA9 ; the checksum field".toList, "; nothing here".toList,
      "TE.EXT 1, 0x20, 1, 0x30, 0x40, 0x50, 9".toList, "SEAL".toList]
    = some [0x0100000000000001#64, 0x0300000000004AA9#64, 0x3380203040500901#64, 0x1400000000000000#64]
  ∧ assemble ["CKSUM 1024".toList] = none
  ∧ assemble ["RB.RD 1023".toList] = some [0x040000000003FF00#64]

/-- R64: every word an assembled program holds is legal, and there is at most one a line. -/
def Obligations.AssembledWordsAreLegal : Prop :=
  ∀ (lines : List (List Char)) (ws : List CommandWord), assemble lines = some ws →
    ws.length ≤ lines.length ∧ ∀ w ∈ ws, ∃ i, decode w = .ok i

end Encoding

section Stepping

/-- R10, R132: a step whose next input is a word that decodes runs the decoded command, with that input taken. -/
def Obligations.StepRunsDecoded : Prop :=
  ∀ (s : State) (cw : CommandWord) (rest : List HostMove) (i : Instr), s.inputs = .command cw :: rest → decode cw = .ok i →
    step s = exec i (s.withInputs rest)

/-- R137: with no input waiting, nothing happens. -/
def Obligations.StepWithoutInput : Prop := ∀ s : State, s.inputs = [] → step s = .next s

/-- R150: the host's reset action; nothing is said of `ACC`, which is unspecified. That the later moves are kept
(`t.inputs = rest`) is the model's choice and no part of R150 (DESIGN CHOICE, assumption log, entry 1). -/
def Obligations.HostResetRestores : Prop :=
  ∀ (s : State) (rest : List HostMove), s.inputs = .reset :: rest → ∃ t, step s = .next t
    ∧ t.modeT = .wired ∧ (∀ a, t.byteAt a = 0x00#8) ∧ t.accv = false ∧ t.err = 0#3 ∧ t.cfg = s.cfg ∧ t.inputs = rest

/-- R24, R150: the state right after reset, for every configuration; the reset machine is built with the reference one. -/
def Obligations.StateAfterReset : Prop :=
  (∀ cfg : Cfg, (State.resetFor cfg).modeT = .wired ∧ (∀ a, (State.resetFor cfg).byteAt a = 0x00#8)
    ∧ (State.resetFor cfg).accv = false ∧ (State.resetFor cfg).err = 0#3 ∧ (State.resetFor cfg).cfg = cfg
    ∧ (State.resetFor cfg).inputs = [] ∧ (State.resetFor cfg).resp = none)
  ∧ State.reset = State.resetFor Config.ref

/-- R17, R18, R134, R151: `ERR` and `ACCV`, once set, are cleared by the host's reset only. -/
def Obligations.OnlyResetClears : Prop :=
  ∀ s t : State, step s = .next t →
    (s.err ≠ 0#3 → t.err ≠ s.err → ∃ rest, s.inputs = .reset :: rest)
    ∧ (s.accv = true → t.accv = false → ∃ rest, s.inputs = .reset :: rest)

/-- R12, R133, R160: every step answers a next state: the block never stops and never waits. -/
def Obligations.EveryStepGoesOn : Prop := ∀ s : State, ∃ t, step s = .next t

/-- R12, R19: nothing writes the configuration. -/
def Obligations.ConfigurationIsConstant : Prop := ∀ s t : State, step s = .next t → t.cfg = s.cfg

/-- R15: the transport changes by `MODE.SET` only, or by the host's reset. -/
def Obligations.ModeChangesByModeSetOnly : Prop :=
  ∀ s t : State, step s = .next t → t.modeT ≠ s.modeT →
    (∃ rest, s.inputs = .reset :: rest) ∨ ∃ cw rest, s.inputs = .command cw :: rest ∧ decode cw = .ok (.modeSet t.modeT)

/-- R10, R38, R39: the commands the host presents are performed in order, each whole before the next. -/
def Obligations.PortRunsCommandsInOrder : Prop :=
  ∀ (s : State) (cmds : List Instr), s.inputs = cmds.map (fun i => HostMove.command (encode i)) →
    Host.Core.run Sys2Proof.core cmds.length s = execAll cmds (s.withInputs [])

end Stepping

section Buffer

/-- R120. -/
def Obligations.ModeSetStartsAFreshReport : Prop :=
  (∀ t : Transport, encode (.modeSet t) = formatM 0x01#8 t.bit)
  ∧ ∀ (s : State) (t : Transport), ∃ u, exec (.modeSet t) s = .next u
    ∧ u.modeT = t ∧ (∀ a, u.byteAt a = 0x00#8) ∧ u.resp = some .ok ∧ u.err = s.err ∧ State.SameAcc s u ∧ State.SameHost s u

/-- R121. -/
def Obligations.RbClrClearsTheReport : Prop :=
  encode .rbClr = formatZ 0x02#8
  ∧ ∀ s : State, ∃ u, exec .rbClr s = .next u
    ∧ (∀ a, u.byteAt a = 0x00#8) ∧ u.resp = some .ok ∧ u.modeT = s.modeT ∧ u.err = s.err ∧ State.SameAcc s u
    ∧ State.SameHost s u

/-- R122: the store, and the fault at or above the report's length. -/
def Obligations.RbWrStoresOneByte : Prop :=
  (∀ (a : Offset) (d : Byte), encode (.rbWr a d) = formatW 0x03#8 a d)
  ∧ (∀ (s : State) (a : Offset) (d : Byte), Memory.wf s.rb = true → a.toNat < Config.outLen s.modeT →
    ∃ u, exec (.rbWr a d) s = .next u
      ∧ (∀ x, u.byteAt x = if x = a.toNat then d else s.byteAt x) ∧ u.resp = some .ok ∧ u.modeT = s.modeT ∧ u.err = s.err
      ∧ State.SameAcc s u ∧ State.SameHost s u)
  ∧ ∀ (s : State) (a : Offset) (d : Byte), Config.outLen s.modeT ≤ a.toNat →
    ∃ u, exec (.rbWr a d) s = .next u ∧ State.FaultTaken s u .addressFault

/-- R123: the read, and the fault at or above the report's length. -/
def Obligations.RbRdReadsOneByte : Prop :=
  (∀ a : Offset, encode (.rbRd a) = formatA 0x04#8 a)
  ∧ (∀ (s : State) (a : Offset), a.toNat < Config.outLen s.modeT →
    ∃ u, exec (.rbRd a) s = .next u
      ∧ u.resp = some (.byte (s.byteAt a.toNat)) ∧ State.SameReport s u ∧ u.err = s.err ∧ State.SameAcc s u
      ∧ State.SameHost s u)
  ∧ ∀ (s : State) (a : Offset), Config.outLen s.modeT ≤ a.toNat →
    ∃ u, exec (.rbRd a) s = .next u ∧ State.FaultTaken s u .addressFault

/-- R33, R39: a read after a write gives the byte written at its address and what was there before at every other. -/
def Obligations.ReadAfterWrite : Prop :=
  ∀ (s t : State) (a x : Offset) (d : Byte), Memory.wf s.rb = true → a.toNat < Config.outLen s.modeT →
    x.toNat < Config.outLen s.modeT → exec (.rbWr a d) s = .next t →
    ∃ u, exec (.rbRd x) t = .next u ∧ u.resp = some (.byte (if x = a then d else s.byteAt x.toNat))

end Buffer

section Checksum

/-- R105. -/
def Obligations.CrcInitStartsTheAccumulator : Prop :=
  encode .crcInit = formatZ 0x10#8
  ∧ ∀ s : State, ∃ u, exec .crcInit s = .next u
    ∧ u.acc = crcStart s.cfg ∧ u.accv = true ∧ u.resp = some .ok ∧ State.SameReport s u ∧ u.err = s.err ∧ State.SameHost s u

/-- R106: one byte absorbed, and the fault before any initialising command. -/
def Obligations.CrcByteAbsorbsOneByte : Prop :=
  (∀ d : Byte, encode (.crcByte d) = formatB 0x11#8 d)
  ∧ (∀ (s : State) (d : Byte), s.accv = true →
    ∃ u, exec (.crcByte d) s = .next u
      ∧ u.acc = crcStep s.cfg s.acc d ∧ u.accv = true ∧ u.resp = some .ok ∧ State.SameReport s u ∧ u.err = s.err
      ∧ State.SameHost s u)
  ∧ ∀ (s : State) (d : Byte), s.accv = false →
    ∃ u, exec (.crcByte d) s = .next u ∧ State.FaultTaken s u .sequenceFault

/-- R107: the code from the accumulator, which is kept, and the fault before any initialising command. -/
def Obligations.CrcFinKeepsTheAccumulator : Prop :=
  encode .crcFin = formatZ 0x12#8
  ∧ (∀ s : State, s.accv = true →
    ∃ u, exec .crcFin s = .next u
      ∧ u.resp = some (.word (crcFinal s.cfg s.acc)) ∧ State.SameAcc s u ∧ State.SameReport s u ∧ u.err = s.err
      ∧ State.SameHost s u)
  ∧ ∀ s : State, s.accv = false → ∃ u, exec .crcFin s = .next u ∧ State.FaultTaken s u .sequenceFault

/-- R108: the checksum of a prefix, in either transport, and the fault above the report's length. -/
def Obligations.CksumOfAPrefix : Prop :=
  (∀ n : Offset, encode (.cksum n) = formatA 0x13#8 n)
  ∧ (∀ (s : State) (n : Offset), n.toNat ≤ Config.outLen s.modeT →
    ∃ u, exec (.cksum n) s = .next u
      ∧ u.acc = s.fold n.toNat ∧ u.accv = true ∧ u.resp = some (.word (crcFinal s.cfg (s.fold n.toNat)))
      ∧ State.SameReport s u ∧ u.err = s.err ∧ State.SameHost s u)
  ∧ ∀ (s : State) (n : Offset), Config.outLen s.modeT < n.toNat →
    ∃ u, exec (.cksum n) s = .next u ∧ State.FaultTaken s u .lengthFault

/-- R109: the sealed checksum in wireless mode, nothing in wired mode. -/
def Obligations.SealStoresTheChecksum : Prop :=
  encode .sealReport = formatZ 0x14#8
  ∧ (∀ s : State, Memory.wf s.rb = true → s.modeT = .wirelessRadio →
    ∃ u c, exec .sealReport s = .next u
      ∧ c = crcFinal s.cfg (s.fold 74) ∧ u.acc = s.fold 74 ∧ u.accv = true ∧ u.resp = some (.word c)
      ∧ (∀ x, u.byteAt x = if x = 74 then c.extractLsb' 0 8 else if x = 75 then c.extractLsb' 8 8
          else if x = 76 then c.extractLsb' 16 8 else if x = 77 then c.extractLsb' 24 8 else s.byteAt x)
      ∧ u.modeT = s.modeT ∧ u.err = s.err ∧ State.SameHost s u)
  ∧ ∀ s : State, s.modeT = .wired →
    ∃ u, exec .sealReport s = .next u
      ∧ u.resp = some .ok ∧ State.SameReport s u ∧ State.SameAcc s u ∧ u.err = s.err ∧ State.SameHost s u

/-- R35: after `SEAL`, four reads of offsets 74 to 77 give the checksum's bytes from least to most significant. -/
def Obligations.SealedFieldIsLittleEndian : Prop :=
  ∀ (s u : State) (k : Nat), Memory.wf s.rb = true → s.modeT = .wirelessRadio → exec .sealReport s = .next u → k < 4 →
    ∃ v, exec (.rbRd (BitVec.ofNat 10 (74 + k))) u = .next v
      ∧ v.resp = some (.byte (BitVec.ofNat 8 ((s.checksum 74).toNat / 256 ^ k)))

/-- R109, corner case: `SEAL` twice in a row ends as once. -/
def Obligations.SealTwiceIsSealOnce : Prop :=
  ∀ s u : State, Memory.wf s.rb = true → exec .sealReport s = .next u → exec .sealReport u = .next u

/-- R110: `CKSUM n` equals streaming the prefix. -/
def Obligations.CksumEqualsStreaming : Prop :=
  ∀ (s : State) (n : Offset), n.toNat ≤ Config.outLen s.modeT →
    execAll (.crcInit :: (s.leadingBytes n.toNat).map Instr.crcByte ++ [.crcFin]) s = exec (.cksum n) s

/-- R111: `SEAL` equals `CKSUM 74` and four stores; after it, the stored word is the checksum and `CKSUM 74` responds it. -/
def Obligations.SealEqualsCksumAndStores : Prop :=
  ∀ s : State, Memory.wf s.rb = true → s.modeT = .wirelessRadio →
    ∃ (u v : State) (c : Word), exec .sealReport s = .next u ∧ u.resp = some (.word c)
      ∧ execAll [.cksum 74#10, .rbWr 74#10 (c.extractLsb' 0 8), .rbWr 75#10 (c.extractLsb' 8 8),
          .rbWr 76#10 (c.extractLsb' 16 8), .rbWr 77#10 (c.extractLsb' 24 8)] s = .next v
      ∧ u = v.withResp (.word c)
      ∧ u.storedChecksum = c ∧ u.storedChecksum = u.checksum 74
      ∧ ∃ w, exec (.cksum 74#10) u = .next w ∧ w.resp = some (.word u.storedChecksum)

/-- R112: reports that differ in exactly one byte of the prefix have different checksums, for every configuration. -/
def Obligations.ChecksumSeesOneChangedByte : Prop :=
  ∀ (s t : State) (n i : Nat), s.cfg = t.cfg → i < n → s.byteAt i ≠ t.byteAt i →
    (∀ j, j < n → j ≠ i → s.byteAt j = t.byteAt j) → s.checksum n ≠ t.checksum n

/-- R113: the XOR law, for every configuration and every length. -/
def Obligations.ChecksumXorLaw : Prop :=
  ∀ (a b c x : State) (n : Nat), b.cfg = a.cfg → c.cfg = a.cfg → x.cfg = a.cfg →
    (∀ i, i < n → x.byteAt i = a.byteAt i ^^^ b.byteAt i ^^^ c.byteAt i) →
    a.checksum n ^^^ b.checksum n ^^^ c.checksum n = x.checksum n

/-- R114: with both reflections on, the least-significant-bit-first form and its table give the same accumulator, reflected, and
the same code. -/
def Obligations.ReflectedFormIsEquivalent : Prop :=
  ∀ (cfg : Cfg) (acc r : Word) (b : Byte), cfg.crcRefIn = true → cfg.crcRefOut = true →
    crcStepR cfg acc.reverse b = (crcStep cfg acc b).reverse
    ∧ crcFinalR cfg acc.reverse = crcFinal cfg acc
    ∧ crcStepTable cfg r b = crcStepR cfg r b

/-- R112, R154, for `RB.WR`: storing a different byte in `[0, 74)` after `SEAL` leaves a stored checksum that no longer matches,
and no fault. -/
def Obligations.RbWrAfterSealIsStale : Prop :=
  ∀ (s u v : State) (a : Offset) (d : Byte), Memory.wf s.rb = true → s.modeT = .wirelessRadio →
    exec .sealReport s = .next u → a.toNat < 74 → d ≠ u.byteAt a.toNat → exec (.rbWr a d) u = .next v →
    u.SealCurrent ∧ ¬ v.SealCurrent ∧ v.storedChecksum = u.storedChecksum ∧ v.resp = some .ok ∧ v.err = s.err

/-- R112, R154, for `TE.*` whose field lies in `[0, 74)` (R159's premise): where the command changes exactly one byte, it leaves a
stored checksum that no longer matches, and no fault. -/
def Obligations.TriggerChangeAfterSealIsStale : Prop :=
  ∀ (s u v : State) (i : Instr) (g : Trigger) (x : Nat), Memory.wf s.rb = true → s.modeT = .wirelessRadio →
    exec .sealReport s = .next u → triggerOf i = some g → teBase u g + u.cfg.teLen ≤ Config.cksLen → exec i u = .next v →
    x < Config.cksLen → v.byteAt x ≠ u.byteAt x → (∀ y, y < Config.cksLen → y ≠ x → v.byteAt y = u.byteAt y) →
    ¬ v.SealCurrent ∧ v.storedChecksum = u.storedChecksum ∧ v.resp = some .ok ∧ v.err = s.err

/-- R157: a stream that `CKSUM` or wireless `SEAL` interrupts ends, without a fault, in the checksum of the buffer. -/
def Obligations.OneAccumulator : Prop :=
  (∀ (s : State) (n : Offset) (ds : List Byte), n.toNat ≤ Config.outLen s.modeT →
    ∃ u, execAll (.crcInit :: ds.map Instr.crcByte ++ [.cksum n, .crcFin]) s = .next u
      ∧ u.resp = some (.word (s.checksum n.toNat)) ∧ u.err = s.err)
  ∧ ∀ (s : State) (ds : List Byte), s.modeT = .wirelessRadio →
    ∃ u, execAll (.crcInit :: ds.map Instr.crcByte ++ [.sealReport, .crcFin]) s = .next u
      ∧ u.resp = some (.word (s.checksum 74)) ∧ u.err = s.err

end Checksum

section DirectionalPad

/-- R74: the response is the ROM's entry for the low nibble; nothing else happens. -/
def Obligations.DpadDecReadsTheRom : Prop :=
  (∀ b : Byte, encode (.dpadDec b) = formatB 0x20#8 b)
  ∧ ∀ (s : State) (b : Byte), ∃ u, exec (.dpadDec b) s = .next u
    ∧ u.resp = some (.dpad (dpadRom s.cfg (b.extractLsb' 0 4)))
    ∧ State.SameReport s u ∧ State.SameAcc s u ∧ u.err = s.err ∧ State.SameHost s u

/-- R75: opposite edges are never both set, at most two flags are, some flag is exactly for nibbles 0 to 7, only the low nibble
counts, and the state is as it was. -/
def Obligations.DpadProperties : Prop :=
  ∀ (s : State) (b : Byte), ∃ f, exec (.dpadDec b) s = .next (s.withResp (.dpad f))
    ∧ (f.up && f.down) = false ∧ (f.left && f.right) = false
    ∧ f.up.toNat + f.down.toNat + f.left.toNat + f.right.toNat ≤ 2
    ∧ (f = ⟨false, false, false, false⟩ ↔ 8 ≤ b.toNat % 16)
    ∧ ∀ b' : Byte, b'.toNat % 16 = b.toNat % 16 → exec (.dpadDec b') s = exec (.dpadDec b) s

/-- R73: the sixteen entries under the decided table, as payloads `{r, l, d, u}`. -/
def Obligations.DpadTableDecided : Prop :=
  ∀ cfg : Cfg, cfg.dpadMap = #v[.n, .ne, .e, .se, .s, .sw, .w, .nw] →
    dpadRomTable cfg = [0x1#4, 0x9#4, 0x8#4, 0xA#4, 0x2#4, 0x6#4, 0x4#4, 0x5#4, 0#4, 0#4, 0#4, 0#4, 0#4, 0#4, 0#4, 0#4]

end DirectionalPad

section TriggerEffects

/-- R83. -/
def Obligations.TeNoneZeroesThreeBytes : Prop :=
  (∀ g : Trigger, encode (.teNone g) = formatT 0x30#8 g.bit 0#8 0#8 0#8 0#8 0#8 0#1)
  ∧ ∀ (s : State) (g : Trigger), Memory.wf s.rb = true →
    ∃ u, exec (.teNone g) s = .next u
      ∧ (∀ x, u.byteAt x = if x = teBase s g ∨ x = teBase s g + 1 ∨ x = teBase s g + 2 then 0x00#8 else s.byteAt x)
      ∧ u.resp = some .ok ∧ u.modeT = s.modeT ∧ u.err = s.err ∧ State.SameAcc s u ∧ State.SameHost s u

/-- R84. -/
def Obligations.TeContStoresThreeBytes : Prop :=
  (∀ (g : Trigger) (start force : Byte), encode (.teCont g start force)
    = formatT 0x31#8 g.bit start force 0#8 0#8 0#8 0#1)
  ∧ ∀ (s : State) (g : Trigger) (start force : Byte), Memory.wf s.rb = true →
    ∃ u, exec (.teCont g start force) s = .next u
      ∧ (∀ x, u.byteAt x = if x = teBase s g then 0x01#8 else if x = teBase s g + 1 then start
          else if x = teBase s g + 2 then force else s.byteAt x)
      ∧ u.resp = some .ok ∧ u.modeT = s.modeT ∧ u.err = s.err ∧ State.SameAcc s u ∧ State.SameHost s u

/-- R85. -/
def Obligations.TeSectStoresThreeBytes : Prop :=
  (∀ (g : Trigger) (start force : Byte), encode (.teSect g start force)
    = formatT 0x32#8 g.bit start force 0#8 0#8 0#8 0#1)
  ∧ ∀ (s : State) (g : Trigger) (start force : Byte), Memory.wf s.rb = true →
    ∃ u, exec (.teSect g start force) s = .next u
      ∧ (∀ x, u.byteAt x = if x = teBase s g then 0x02#8 else if x = teBase s g + 1 then start
          else if x = teBase s g + 2 then force else s.byteAt x)
      ∧ u.resp = some .ok ∧ u.modeT = s.modeT ∧ u.err = s.err ∧ State.SameAcc s u ∧ State.SameHost s u

/-- R86, with the arithmetic of R89: six bytes of the field, seven when `keep` is set, each at its own offset. -/
def Obligations.TeExtStoresItsBytes : Prop :=
  (∀ (g : Trigger) (start : Byte) (keep : Bool) (b m e q : Byte), encode (.teExt g start keep b m e q)
    = formatT 0x33#8 g.bit start b m e q (BitVec.ofBool keep))
  ∧ ∀ (s : State) (g : Trigger) (start : Byte) (keep : Bool) (b m e q : Byte), Memory.wf s.rb = true →
    ∃ u, exec (.teExt g start keep b m e q) s = .next u
      ∧ (∀ x, u.byteAt x =
          if x = teBase s g then 0x26#8
          else if x = teBase s g + s.cfg.teXStartOff then BitVec.ofNat 8 (255 - start.toNat)
          else if x = teBase s g + s.cfg.teXKeepOff then (if keep then s.cfg.teXKeepVal else s.byteAt x)
          else if x = teBase s g + s.cfg.teXBeginOff then b
          else if x = teBase s g + s.cfg.teXMidOff then m
          else if x = teBase s g + s.cfg.teXEndOff then e
          else if x = teBase s g + s.cfg.teXFreqOff then (if q.toNat < 2 then 1#8 else q >>> 1)
          else s.byteAt x)
      ∧ u.resp = some .ok ∧ u.modeT = s.modeT ∧ u.err = s.err ∧ State.SameAcc s u ∧ State.SameHost s u

/-- R88. -/
def Obligations.TeCalStoresOneByte : Prop :=
  (∀ g : Trigger, encode (.teCal g) = formatT 0x34#8 g.bit 0#8 0#8 0#8 0#8 0#8 0#1)
  ∧ ∀ (s : State) (g : Trigger), Memory.wf s.rb = true →
    ∃ u, exec (.teCal g) s = .next u
      ∧ (∀ x, u.byteAt x = if x = teBase s g then 0xFC#8 else s.byteAt x)
      ∧ u.resp = some .ok ∧ u.modeT = s.modeT ∧ u.err = s.err ∧ State.SameAcc s u ∧ State.SameHost s u

/-- R89: the inverted start is the complement; the frequency byte is the floor of the half, at least 1, at most 127; the rule's
table. -/
def Obligations.TriggerArithmetic : Prop :=
  (∀ start : Byte, invertedStart start = ~~~start ∧ (invertedStart start).toNat = 255 - start.toNat)
  ∧ (∀ freq : Byte, frequencyByte freq = (if freq >>> 1 = 0#8 then 1#8 else freq >>> 1)
      ∧ 1 ≤ (frequencyByte freq).toNat ∧ (frequencyByte freq).toNat ≤ 127)
  ∧ [0#8, 1#8, 2#8, 3#8, 4#8, 5#8, 127#8, 128#8, 254#8, 255#8].map frequencyByte
      = [1#8, 1#8, 1#8, 1#8, 2#8, 2#8, 63#8, 64#8, 127#8, 127#8]

/-- R92: a trigger-effect command changes no byte outside its field, and none of the other trigger's field. -/
def Obligations.TriggersAreIndependent : Prop :=
  ∀ (s u : State) (i : Instr) (g : Trigger), triggerOf i = some g → exec i s = .next u →
    (∀ x, (x < teBase s g ∨ teBase s g + s.cfg.teLen ≤ x) → u.byteAt x = s.byteAt x)
    ∧ ∀ x, teBase s (otherTrigger g) ≤ x → x < teBase s (otherTrigger g) + s.cfg.teLen → u.byteAt x = s.byteAt x

/-- R93: the bytes a trigger-effect command writes depend on its operands, the transport and the configuration alone: from two
states that agree on these, each address holds the same byte afterwards or is untouched in both. -/
def Obligations.TriggerEncodingIsDeterministic : Prop :=
  ∀ (s s' u u' : State) (i : Instr) (g : Trigger), Memory.wf s.rb = true → Memory.wf s'.rb = true → triggerOf i = some g →
    s'.cfg = s.cfg → s'.modeT = s.modeT → exec i s = .next u → exec i s' = .next u' →
    (∀ x, u'.byteAt x = u.byteAt x ∨ (u.byteAt x = s.byteAt x ∧ u'.byteAt x = s'.byteAt x)) ∧ u'.resp = u.resp

end TriggerEffects

section Faults

/-- R133: whatever command word responds a fault, the first cause since reset is kept in `ERR` and nothing else has changed. -/
def Obligations.FaultsArePrecise : Prop :=
  ∀ (s t : State) (cw : CommandWord) (rest : List HostMove) (c : Cause), s.inputs = .command cw :: rest →
    step s = .next t → t.resp = some (.fault c) →
    t.err = (if s.err = 0#3 then c.code else s.err)
    ∧ t.modeT = s.modeT ∧ t.rb = s.rb ∧ t.acc = s.acc ∧ t.accv = s.accv ∧ t.cfg = s.cfg ∧ t.inputs = rest

/-- R131: which command word raises which fault, exactly when. -/
def Obligations.WhichCommandRaisesWhich : Prop :=
  ∀ (s t : State) (cw : CommandWord) (rest : List HostMove) (c : Cause), s.inputs = .command cw :: rest →
    step s = .next t →
    (t.resp = some (.fault c) ↔
      match c with
      | .illegalCommand => ∃ e, decode cw = .error e
      | .addressFault => ∃ a, Config.outLen s.modeT ≤ a.toNat
          ∧ (decode cw = .ok (.rbRd a) ∨ ∃ d, decode cw = .ok (.rbWr a d))
      | .lengthFault => ∃ n, Config.outLen s.modeT < n.toNat ∧ decode cw = .ok (.cksum n)
      | .sequenceFault => s.accv = false ∧ (decode cw = .ok .crcFin ∨ ∃ d, decode cw = .ok (.crcByte d)))

/-- R135: the cases that must not fault. -/
def Obligations.DefinedCasesDoNotFault : Prop :=
  (∀ (s : State) (b : Byte), 8 ≤ b.toNat % 16 → exec (.dpadDec b) s = .next (s.withResp (.dpad ⟨false, false, false, false⟩)))
  ∧ (∀ s : State, s.modeT = .wired → exec .sealReport s = .next (s.withResp .ok))
  ∧ (∀ (s : State) (i : Instr) (g : Trigger), triggerOf i = some g → ∃ u, exec i s = .next u ∧ u.resp = some .ok ∧ u.err = s.err)
  ∧ ∀ s : State, ∃ u, exec (.cksum 0#10) s = .next u ∧ u.resp = some (.word (crcFinal s.cfg (crcStart s.cfg))) ∧ u.err = s.err

/-- R18, R21: no command's effect or response depends on `ERR`. -/
def Obligations.ErrIsReadByNoCommand : Prop :=
  ∀ (s : State) (i : Instr) (e : BitVec 3), ∃ t u, exec i s = .next t ∧ exec i (s.withErr e) = .next u
    ∧ u.resp = t.resp ∧ u.modeT = t.modeT ∧ u.rb = t.rb ∧ u.acc = t.acc ∧ u.accv = t.accv

/-- R142, R153: `ERR` being sticky, a run that ends without a recorded fault had none at any earlier point. -/
def Obligations.SuccessfulRunNeverFaulted : Prop :=
  ∀ (cfg : Cfg) (before after : List Instr), successfulRun cfg (before ++ after) →
    ∃ t, execAll before (State.resetFor cfg) = .next t ∧ t.NoFault ∧ ∀ c, t.resp ≠ some (.fault c)

end Faults

section Invariants

/-- The invariant holds after reset, for every configuration. -/
def Obligations.ResetMeetsTheInvariant : Prop := (∀ cfg : Cfg, (State.resetFor cfg).Inv) ∧ State.reset.Inv

/-- R13, R18, R124, R133: every step keeps the invariant. -/
def Obligations.EveryStepKeepsTheInvariant : Prop := ∀ s t : State, s.Inv → step s = .next t → t.Inv

/-- R124: in every reachable state with `MODE.T = Wired`, `RB[i] = 0x00` for all `i` in 48..546. -/
def Obligations.WiredReportEndsAtFortyEight : Prop :=
  ∀ (cfg : Cfg) (s : State), Reachable cfg s → s.modeT = .wired → ∀ i, 48 ≤ i → i ≤ 546 → s.byteAt i = 0x00#8

/-- R24, R16: observationally equal states stay so and give the same response: what `ACC` holds while `ACCV = 0` is never
observed, so nothing rests on its value after reset. -/
def Obligations.ObservationalEqualityIsKept : Prop :=
  ∀ s s' t t' : State, State.ObsEq s s' → step s = .next t → step s' = .next t' → State.ObsEq t t'

/-- R7: the five items. -/
def Obligations.ConfigurationWellFormed : Prop :=
  (∀ c : CfgRecord, c.wellFormed = true ↔
    c.crcPoly.getLsbD 0 = true
    ∧ 7 ≤ c.teLen
    ∧ (∀ o ∈ c.teXOffsets, 1 ≤ o ∧ o ≤ c.teLen - 1)
    ∧ c.teXOffsets.Pairwise (fun o o' => o ≠ o')
    ∧ (∀ t g, c.teBase t g + c.teLen ≤ Config.outLen t)
    ∧ ∀ t x, ¬ (c.teBase t .first ≤ x ∧ x < c.teBase t .first + c.teLen
        ∧ c.teBase t .second ≤ x ∧ x < c.teBase t .second + c.teLen))
  ∧ ∀ c : Cfg, c.toCfgRecord.wellFormed = true

end Invariants
end

