-- ==== Sys2Proof/Laws/Crc.lean ====
section
/-! SUPPORT. The fold of the checksum unit is the plain fold of `crc_step` from `crc_start()` (R104). -/
namespace Sys2Proof.Machine

@[simp] theorem settled_eq {α : Type} (w : Word) (k : Word → α) : settled w k = k w := by simp [settled]

theorem crcAbsorb_eq_foldl (cfg : Cfg) (bs : List Byte) (acc : Word) : crcAbsorb cfg bs acc = bs.foldl (crcStep cfg) acc := by
  induction bs generalizing acc with
  | nil => rfl
  | cons b bs ih => simp [crcAbsorb, ih]

theorem crcFold_eq_foldl (cfg : Cfg) (bs : List Byte) : crcFold cfg bs = bs.foldl (crcStep cfg) (crcStart cfg) := by
  simp [crcFold, crcAbsorb_eq_foldl]

theorem crcFold_append (cfg : Cfg) (bs cs : List Byte) : crcFold cfg (bs ++ cs) = cs.foldl (crcStep cfg) (crcFold cfg bs) := by
  simp [crcFold_eq_foldl]

theorem State.fold_eq (s : State) (n : Nat) :
    s.fold n = (s.leadingBytes n).foldl (crcStep s.cfg) (crcStart s.cfg) := crcFold_eq_foldl s.cfg _

theorem State.checksum_eq (s : State) (n : Nat) : s.checksum n = crcFinal s.cfg (s.fold n) := rfl

theorem State.checksum_eq_crcOf (s : State) (n : Nat) : s.checksum n = crcOf s.cfg (s.leadingBytes n) := rfl

end Sys2Proof.Machine
end

