-- ==== Sys2Proof/Laws/Encoding.lean ====
section
/-! SUPPORT. The formats of R50 against the fields of R51 and the masks of R55: what each field of a formatted word reads, and
which word each row's mask leaves of it. -/
namespace Sys2Proof

theorem formatZ_mask (op : Byte) : formatZ op &&& 0xFFFFFFFFFFFFFFFF#64 = formatZ op := by
  apply BitVec.eq_of_getLsbD_eq
  intro k hk
  simp only [formatZ, BitVec.getLsbD_and, BitVec.getLsbD_cast, BitVec.getLsbD_append]
  interval_cases k <;> simp

theorem formatM_mask (op : Byte) (t : BitVec 1) : formatM op t &&& 0xFFFFFFFFFFFFFFFE#64 = formatZ op := by
  apply BitVec.eq_of_getLsbD_eq
  intro k hk
  simp only [formatM, formatZ, BitVec.getLsbD_and, BitVec.getLsbD_cast, BitVec.getLsbD_append]
  interval_cases k <;> simp

theorem formatB_mask (op b : Byte) : formatB op b &&& 0xFFFFFFFFFFFFFF00#64 = formatZ op := by
  apply BitVec.eq_of_getLsbD_eq
  intro k hk
  simp only [formatB, formatZ, BitVec.getLsbD_and, BitVec.getLsbD_cast, BitVec.getLsbD_append]
  interval_cases k <;> simp

theorem formatW_mask (op : Byte) (a : Offset) (b : Byte) : formatW op a b &&& 0xFFFFFFFFFFFC0000#64 = formatZ op := by
  apply BitVec.eq_of_getLsbD_eq
  intro k hk
  simp only [formatW, formatZ, BitVec.getLsbD_and, BitVec.getLsbD_cast, BitVec.getLsbD_append]
  interval_cases k <;> simp

theorem formatA_mask (op : Byte) (a : Offset) : formatA op a &&& 0xFFFFFFFFFFFC00FF#64 = formatZ op := by
  apply BitVec.eq_of_getLsbD_eq
  intro k hk
  simp only [formatA, formatW, formatZ, BitVec.getLsbD_and, BitVec.getLsbD_cast, BitVec.getLsbD_append]
  interval_cases k <;> simp

theorem formatT_mask (op : Byte) (g : BitVec 1) (start p2 mid endB freq : Byte) (keep : BitVec 1) :
    formatT op g start p2 mid endB freq keep &&& 0xFF7F0000000000FE#64 = formatZ op := by
  apply BitVec.eq_of_getLsbD_eq
  intro k hk
  simp only [formatT, formatZ, BitVec.getLsbD_and, BitVec.getLsbD_cast, BitVec.getLsbD_append]
  interval_cases k <;> simp

theorem formatT_mask_two (op : Byte) (g : BitVec 1) (start p2 : Byte) :
    formatT op g start p2 0#8 0#8 0#8 0#1 &&& 0xFF7F0000FFFFFFFF#64 = formatZ op := by
  apply BitVec.eq_of_getLsbD_eq
  intro k hk
  simp only [formatT, formatZ, BitVec.getLsbD_and, BitVec.getLsbD_cast, BitVec.getLsbD_append]
  interval_cases k <;> simp

theorem formatT_mask_none (op : Byte) (g : BitVec 1) :
    formatT op g 0#8 0#8 0#8 0#8 0#8 0#1 &&& 0xFF7FFFFFFFFFFFFF#64 = formatZ op := by
  apply BitVec.eq_of_getLsbD_eq
  intro k hk
  simp only [formatT, formatZ, BitVec.getLsbD_and, BitVec.getLsbD_cast, BitVec.getLsbD_append]
  interval_cases k <;> simp

theorem fieldT_formatM (op : Byte) (t : Transport) : fieldT (formatM op t.bit) = t := by
  cases t <;> simp only [fieldT, formatM, Transport.bit, BitVec.getLsbD_cast, BitVec.getLsbD_append] <;> simp

theorem fieldImm8_formatB (op b : Byte) : fieldImm8 (formatB op b) = b := by
  apply BitVec.eq_of_getLsbD_eq
  intro k hk
  simp only [fieldImm8, formatB, BitVec.getLsbD_extractLsb', BitVec.getLsbD_cast, BitVec.getLsbD_append]
  interval_cases k <;> simp

theorem fieldImm8_formatW (op : Byte) (a : Offset) (b : Byte) : fieldImm8 (formatW op a b) = b := by
  apply BitVec.eq_of_getLsbD_eq
  intro k hk
  simp only [fieldImm8, formatW, BitVec.getLsbD_extractLsb', BitVec.getLsbD_cast, BitVec.getLsbD_append]
  interval_cases k <;> simp

theorem fieldAddr_formatW (op : Byte) (a : Offset) (b : Byte) : fieldAddr (formatW op a b) = a := by
  apply BitVec.eq_of_getLsbD_eq
  intro k hk
  simp only [fieldAddr, formatW, BitVec.getLsbD_extractLsb', BitVec.getLsbD_cast, BitVec.getLsbD_append]
  interval_cases k <;> simp

theorem fieldAddr_formatA (op : Byte) (a : Offset) : fieldAddr (formatA op a) = a := fieldAddr_formatW op a 0#8

section
variable (op : Byte) (g : Trigger) (start p2 mid endB freq : Byte) (keep : Bool) (k1 : BitVec 1)

theorem fieldG_formatT : fieldG (formatT op g.bit start p2 mid endB freq k1) = g := by
  cases g <;> simp only [fieldG, formatT, Trigger.bit, BitVec.getLsbD_cast, BitVec.getLsbD_append] <;> simp

theorem fieldStart_formatT (g1 : BitVec 1) : fieldStart (formatT op g1 start p2 mid endB freq k1) = start := by
  apply BitVec.eq_of_getLsbD_eq
  intro k hk
  simp only [fieldStart, formatT, BitVec.getLsbD_extractLsb', BitVec.getLsbD_cast, BitVec.getLsbD_append]
  interval_cases k <;> simp

theorem fieldP2_formatT (g1 : BitVec 1) : fieldP2 (formatT op g1 start p2 mid endB freq k1) = p2 := by
  apply BitVec.eq_of_getLsbD_eq
  intro k hk
  simp only [fieldP2, formatT, BitVec.getLsbD_extractLsb', BitVec.getLsbD_cast, BitVec.getLsbD_append]
  interval_cases k <;> simp

theorem fieldMid_formatT (g1 : BitVec 1) : fieldMid (formatT op g1 start p2 mid endB freq k1) = mid := by
  apply BitVec.eq_of_getLsbD_eq
  intro k hk
  simp only [fieldMid, formatT, BitVec.getLsbD_extractLsb', BitVec.getLsbD_cast, BitVec.getLsbD_append]
  interval_cases k <;> simp

theorem fieldEnd_formatT (g1 : BitVec 1) : fieldEnd (formatT op g1 start p2 mid endB freq k1) = endB := by
  apply BitVec.eq_of_getLsbD_eq
  intro k hk
  simp only [fieldEnd, formatT, BitVec.getLsbD_extractLsb', BitVec.getLsbD_cast, BitVec.getLsbD_append]
  interval_cases k <;> simp

theorem fieldFreq_formatT (g1 : BitVec 1) : fieldFreq (formatT op g1 start p2 mid endB freq k1) = freq := by
  apply BitVec.eq_of_getLsbD_eq
  intro k hk
  simp only [fieldFreq, formatT, BitVec.getLsbD_extractLsb', BitVec.getLsbD_cast, BitVec.getLsbD_append]
  interval_cases k <;> simp

theorem fieldKeep_formatT (g1 : BitVec 1) :
    fieldKeep (formatT op g1 start p2 mid endB freq (BitVec.ofBool keep)) = keep := by
  cases keep <;> simp only [fieldKeep, formatT, BitVec.getLsbD_cast, BitVec.getLsbD_append] <;> simp

end

end Sys2Proof
end

