-- ==== Sys2Proof/Laws/State.lean ====
section
/-! SUPPORT. One lemma per field per update of the state, each true by definition, so that no proof unfolds a record update. -/
namespace Sys2Proof.Machine

@[simp] theorem State.withMode_cfg (s : State) (t : Transport) : (s.withMode t).cfg = s.cfg := rfl
@[simp] theorem State.withMode_modeT (s : State) (t : Transport) : (s.withMode t).modeT = t := rfl
@[simp] theorem State.withMode_rb (s : State) (t : Transport) : (s.withMode t).rb = s.rb := rfl
@[simp] theorem State.withMode_acc (s : State) (t : Transport) : (s.withMode t).acc = s.acc := rfl
@[simp] theorem State.withMode_accv (s : State) (t : Transport) : (s.withMode t).accv = s.accv := rfl
@[simp] theorem State.withMode_err (s : State) (t : Transport) : (s.withMode t).err = s.err := rfl
@[simp] theorem State.withMode_inputs (s : State) (t : Transport) : (s.withMode t).inputs = s.inputs := rfl
@[simp] theorem State.withMode_resp (s : State) (t : Transport) : (s.withMode t).resp = s.resp := rfl
@[simp] theorem State.withMode_draws (s : State) (t : Transport) : (s.withMode t).draws = s.draws := rfl

@[simp] theorem State.withRb_cfg (s : State) (m : Memory) : (s.withRb m).cfg = s.cfg := rfl
@[simp] theorem State.withRb_modeT (s : State) (m : Memory) : (s.withRb m).modeT = s.modeT := rfl
@[simp] theorem State.withRb_rb (s : State) (m : Memory) : (s.withRb m).rb = m := rfl
@[simp] theorem State.withRb_acc (s : State) (m : Memory) : (s.withRb m).acc = s.acc := rfl
@[simp] theorem State.withRb_accv (s : State) (m : Memory) : (s.withRb m).accv = s.accv := rfl
@[simp] theorem State.withRb_err (s : State) (m : Memory) : (s.withRb m).err = s.err := rfl
@[simp] theorem State.withRb_inputs (s : State) (m : Memory) : (s.withRb m).inputs = s.inputs := rfl
@[simp] theorem State.withRb_resp (s : State) (m : Memory) : (s.withRb m).resp = s.resp := rfl
@[simp] theorem State.withRb_draws (s : State) (m : Memory) : (s.withRb m).draws = s.draws := rfl

@[simp] theorem State.withAcc_cfg (s : State) (a : Word) : (s.withAcc a).cfg = s.cfg := rfl
@[simp] theorem State.withAcc_modeT (s : State) (a : Word) : (s.withAcc a).modeT = s.modeT := rfl
@[simp] theorem State.withAcc_rb (s : State) (a : Word) : (s.withAcc a).rb = s.rb := rfl
@[simp] theorem State.withAcc_acc (s : State) (a : Word) : (s.withAcc a).acc = a := rfl
@[simp] theorem State.withAcc_accv (s : State) (a : Word) : (s.withAcc a).accv = s.accv := rfl
@[simp] theorem State.withAcc_err (s : State) (a : Word) : (s.withAcc a).err = s.err := rfl
@[simp] theorem State.withAcc_inputs (s : State) (a : Word) : (s.withAcc a).inputs = s.inputs := rfl
@[simp] theorem State.withAcc_resp (s : State) (a : Word) : (s.withAcc a).resp = s.resp := rfl
@[simp] theorem State.withAcc_draws (s : State) (a : Word) : (s.withAcc a).draws = s.draws := rfl

@[simp] theorem State.withNewAcc_cfg (s : State) (a : Word) : (s.withNewAcc a).cfg = s.cfg := rfl
@[simp] theorem State.withNewAcc_modeT (s : State) (a : Word) : (s.withNewAcc a).modeT = s.modeT := rfl
@[simp] theorem State.withNewAcc_rb (s : State) (a : Word) : (s.withNewAcc a).rb = s.rb := rfl
@[simp] theorem State.withNewAcc_acc (s : State) (a : Word) : (s.withNewAcc a).acc = a := rfl
@[simp] theorem State.withNewAcc_accv (s : State) (a : Word) : (s.withNewAcc a).accv = true := rfl
@[simp] theorem State.withNewAcc_err (s : State) (a : Word) : (s.withNewAcc a).err = s.err := rfl
@[simp] theorem State.withNewAcc_inputs (s : State) (a : Word) : (s.withNewAcc a).inputs = s.inputs := rfl
@[simp] theorem State.withNewAcc_resp (s : State) (a : Word) : (s.withNewAcc a).resp = s.resp := rfl
@[simp] theorem State.withNewAcc_draws (s : State) (a : Word) : (s.withNewAcc a).draws = s.draws := rfl

@[simp] theorem State.withErr_cfg (s : State) (e : BitVec 3) : (s.withErr e).cfg = s.cfg := rfl
@[simp] theorem State.withErr_modeT (s : State) (e : BitVec 3) : (s.withErr e).modeT = s.modeT := rfl
@[simp] theorem State.withErr_rb (s : State) (e : BitVec 3) : (s.withErr e).rb = s.rb := rfl
@[simp] theorem State.withErr_acc (s : State) (e : BitVec 3) : (s.withErr e).acc = s.acc := rfl
@[simp] theorem State.withErr_accv (s : State) (e : BitVec 3) : (s.withErr e).accv = s.accv := rfl
@[simp] theorem State.withErr_err (s : State) (e : BitVec 3) : (s.withErr e).err = e := rfl
@[simp] theorem State.withErr_inputs (s : State) (e : BitVec 3) : (s.withErr e).inputs = s.inputs := rfl
@[simp] theorem State.withErr_resp (s : State) (e : BitVec 3) : (s.withErr e).resp = s.resp := rfl
@[simp] theorem State.withErr_draws (s : State) (e : BitVec 3) : (s.withErr e).draws = s.draws := rfl

@[simp] theorem State.withResp_cfg (s : State) (r : Response) : (s.withResp r).cfg = s.cfg := rfl
@[simp] theorem State.withResp_modeT (s : State) (r : Response) : (s.withResp r).modeT = s.modeT := rfl
@[simp] theorem State.withResp_rb (s : State) (r : Response) : (s.withResp r).rb = s.rb := rfl
@[simp] theorem State.withResp_acc (s : State) (r : Response) : (s.withResp r).acc = s.acc := rfl
@[simp] theorem State.withResp_accv (s : State) (r : Response) : (s.withResp r).accv = s.accv := rfl
@[simp] theorem State.withResp_err (s : State) (r : Response) : (s.withResp r).err = s.err := rfl
@[simp] theorem State.withResp_inputs (s : State) (r : Response) : (s.withResp r).inputs = s.inputs := rfl
@[simp] theorem State.withResp_resp (s : State) (r : Response) : (s.withResp r).resp = some r := rfl
@[simp] theorem State.withResp_draws (s : State) (r : Response) : (s.withResp r).draws = s.draws := rfl

@[simp] theorem State.withInputs_cfg (s : State) (ms : List HostMove) : (s.withInputs ms).cfg = s.cfg := rfl
@[simp] theorem State.withInputs_modeT (s : State) (ms : List HostMove) : (s.withInputs ms).modeT = s.modeT := rfl
@[simp] theorem State.withInputs_rb (s : State) (ms : List HostMove) : (s.withInputs ms).rb = s.rb := rfl
@[simp] theorem State.withInputs_acc (s : State) (ms : List HostMove) : (s.withInputs ms).acc = s.acc := rfl
@[simp] theorem State.withInputs_accv (s : State) (ms : List HostMove) : (s.withInputs ms).accv = s.accv := rfl
@[simp] theorem State.withInputs_err (s : State) (ms : List HostMove) : (s.withInputs ms).err = s.err := rfl
@[simp] theorem State.withInputs_inputs (s : State) (ms : List HostMove) : (s.withInputs ms).inputs = ms := rfl
@[simp] theorem State.withInputs_resp (s : State) (ms : List HostMove) : (s.withInputs ms).resp = s.resp := rfl
@[simp] theorem State.withInputs_draws (s : State) (ms : List HostMove) : (s.withInputs ms).draws = s.draws := rfl

@[simp] theorem State.clearRb_cfg (s : State) : (s.clearRb).cfg = s.cfg := rfl
@[simp] theorem State.clearRb_modeT (s : State) : (s.clearRb).modeT = s.modeT := rfl
@[simp] theorem State.clearRb_rb (s : State) : (s.clearRb).rb = Memory.cleared := rfl
@[simp] theorem State.clearRb_acc (s : State) : (s.clearRb).acc = s.acc := rfl
@[simp] theorem State.clearRb_accv (s : State) : (s.clearRb).accv = s.accv := rfl
@[simp] theorem State.clearRb_err (s : State) : (s.clearRb).err = s.err := rfl
@[simp] theorem State.clearRb_inputs (s : State) : (s.clearRb).inputs = s.inputs := rfl
@[simp] theorem State.clearRb_resp (s : State) : (s.clearRb).resp = s.resp := rfl
@[simp] theorem State.clearRb_draws (s : State) : (s.clearRb).draws = s.draws := rfl

@[simp] theorem State.writeByte_cfg (s : State) (a : Nat) (v : Byte) : (s.writeByte a v).cfg = s.cfg := rfl
@[simp] theorem State.writeByte_modeT (s : State) (a : Nat) (v : Byte) : (s.writeByte a v).modeT = s.modeT := rfl
@[simp] theorem State.writeByte_rb (s : State) (a : Nat) (v : Byte) : (s.writeByte a v).rb = Memory.write s.rb a v := rfl
@[simp] theorem State.writeByte_acc (s : State) (a : Nat) (v : Byte) : (s.writeByte a v).acc = s.acc := rfl
@[simp] theorem State.writeByte_accv (s : State) (a : Nat) (v : Byte) : (s.writeByte a v).accv = s.accv := rfl
@[simp] theorem State.writeByte_err (s : State) (a : Nat) (v : Byte) : (s.writeByte a v).err = s.err := rfl
@[simp] theorem State.writeByte_inputs (s : State) (a : Nat) (v : Byte) : (s.writeByte a v).inputs = s.inputs := rfl
@[simp] theorem State.writeByte_resp (s : State) (a : Nat) (v : Byte) : (s.writeByte a v).resp = s.resp := rfl
@[simp] theorem State.writeByte_draws (s : State) (a : Nat) (v : Byte) : (s.writeByte a v).draws = s.draws := rfl

@[simp] theorem State.writeWord_cfg (s : State) (a : Nat) (w : Word) : (s.writeWord a w).cfg = s.cfg := rfl
@[simp] theorem State.writeWord_modeT (s : State) (a : Nat) (w : Word) : (s.writeWord a w).modeT = s.modeT := rfl
@[simp] theorem State.writeWord_rb (s : State) (a : Nat) (w : Word) : (s.writeWord a w).rb = Memory.writeList s.rb a (littleEndian w) := rfl
@[simp] theorem State.writeWord_acc (s : State) (a : Nat) (w : Word) : (s.writeWord a w).acc = s.acc := rfl
@[simp] theorem State.writeWord_accv (s : State) (a : Nat) (w : Word) : (s.writeWord a w).accv = s.accv := rfl
@[simp] theorem State.writeWord_err (s : State) (a : Nat) (w : Word) : (s.writeWord a w).err = s.err := rfl
@[simp] theorem State.writeWord_inputs (s : State) (a : Nat) (w : Word) : (s.writeWord a w).inputs = s.inputs := rfl
@[simp] theorem State.writeWord_resp (s : State) (a : Nat) (w : Word) : (s.writeWord a w).resp = s.resp := rfl
@[simp] theorem State.writeWord_draws (s : State) (a : Nat) (w : Word) : (s.writeWord a w).draws = s.draws := rfl

@[simp] theorem State.writeBytes_cfg (s : State) (base : Nat) (ws : List (Nat × Byte)) : (s.writeBytes base ws).cfg = s.cfg := rfl
@[simp] theorem State.writeBytes_modeT (s : State) (base : Nat) (ws : List (Nat × Byte)) : (s.writeBytes base ws).modeT = s.modeT := rfl
@[simp] theorem State.writeBytes_rb (s : State) (base : Nat) (ws : List (Nat × Byte)) : (s.writeBytes base ws).rb = Memory.writeList s.rb base ws := rfl
@[simp] theorem State.writeBytes_acc (s : State) (base : Nat) (ws : List (Nat × Byte)) : (s.writeBytes base ws).acc = s.acc := rfl
@[simp] theorem State.writeBytes_accv (s : State) (base : Nat) (ws : List (Nat × Byte)) : (s.writeBytes base ws).accv = s.accv := rfl
@[simp] theorem State.writeBytes_err (s : State) (base : Nat) (ws : List (Nat × Byte)) : (s.writeBytes base ws).err = s.err := rfl
@[simp] theorem State.writeBytes_inputs (s : State) (base : Nat) (ws : List (Nat × Byte)) : (s.writeBytes base ws).inputs = s.inputs := rfl
@[simp] theorem State.writeBytes_resp (s : State) (base : Nat) (ws : List (Nat × Byte)) : (s.writeBytes base ws).resp = s.resp := rfl
@[simp] theorem State.writeBytes_draws (s : State) (base : Nat) (ws : List (Nat × Byte)) : (s.writeBytes base ws).draws = s.draws := rfl

@[simp] theorem hostReset_cfg (s : State) : (hostReset s).cfg = s.cfg := rfl
@[simp] theorem hostReset_modeT (s : State) : (hostReset s).modeT = .wired := rfl
@[simp] theorem hostReset_rb (s : State) : (hostReset s).rb = [] := rfl
@[simp] theorem hostReset_acc (s : State) : (hostReset s).acc = Config.accDraw s.draws := rfl
@[simp] theorem hostReset_accv (s : State) : (hostReset s).accv = false := rfl
@[simp] theorem hostReset_err (s : State) : (hostReset s).err = 0#3 := rfl
@[simp] theorem hostReset_inputs (s : State) : (hostReset s).inputs = s.inputs := rfl
@[simp] theorem hostReset_resp (s : State) : (hostReset s).resp = none := rfl
@[simp] theorem hostReset_draws (s : State) : (hostReset s).draws = s.draws + 1 := rfl

@[simp] theorem State.resetFor_cfg (c : Cfg) : (State.resetFor c).cfg = c := rfl
@[simp] theorem State.resetFor_modeT (c : Cfg) : (State.resetFor c).modeT = .wired := rfl
@[simp] theorem State.resetFor_rb (c : Cfg) : (State.resetFor c).rb = [] := rfl
@[simp] theorem State.resetFor_acc (c : Cfg) : (State.resetFor c).acc = 0#32 := rfl
@[simp] theorem State.resetFor_accv (c : Cfg) : (State.resetFor c).accv = false := rfl
@[simp] theorem State.resetFor_err (c : Cfg) : (State.resetFor c).err = 0#3 := rfl
@[simp] theorem State.resetFor_inputs (c : Cfg) : (State.resetFor c).inputs = [] := rfl
@[simp] theorem State.resetFor_resp (c : Cfg) : (State.resetFor c).resp = none := rfl
@[simp] theorem State.resetFor_draws (c : Cfg) : (State.resetFor c).draws = 0 := rfl

end Sys2Proof.Machine
end

