-- ==== Sys2Proof/Laws/Memory.lean ====
section
/-! SUPPORT. The laws of the report buffer: a read after a write, what a write leaves alone, and that every operation keeps the
canonical form and the bound. -/
namespace Sys2Proof.Machine

@[simp] theorem Memory.read_nil (a : Nat) : Memory.read [] a = 0#8 := rfl

@[simp] theorem Memory.read_cleared (a : Nat) : Memory.read Memory.cleared a = 0#8 := rfl

@[simp] theorem Memory.wf_nil : Memory.wf [] = true := rfl

@[simp] theorem Memory.wf_cleared : Memory.wf Memory.cleared = true := rfl

@[simp] theorem Memory.below_nil (n : Nat) : Memory.below n [] = true := rfl

@[simp] theorem Memory.below_cleared (n : Nat) : Memory.below n Memory.cleared = true := rfl

/-- The addresses rise strictly from `lo`, and no unlisted value is listed. -/
def Memory.wfFrom (lo : Option Nat) (m : Memory) : Prop :=
  Memory.risingFrom lo m = true ∧ (m.all fun c => decide (c.2 ≠ unlistedByte)) = true

theorem Memory.wf_iff (m : Memory) : Memory.wf m = true ↔ Memory.wfFrom none m := by
  simp [Memory.wf, Memory.wfFrom]

theorem Memory.wfFrom_cons (lo : Option Nat) (a : Nat) (v : Byte) (m : Memory) :
    Memory.wfFrom lo ((a, v) :: m) ↔ (∀ l, lo = some l → l < a) ∧ v ≠ unlistedByte ∧ Memory.wfFrom (some a) m := by
  cases lo <;> simp [Memory.wfFrom, Memory.risingFrom] <;> tauto

theorem Memory.wfFrom_nil (lo : Option Nat) : Memory.wfFrom lo [] := by
  cases lo <;> simp [Memory.wfFrom, Memory.risingFrom]

theorem Memory.wfFrom_lower {lo lo' : Option Nat} {m : Memory} (h : Memory.wfFrom lo m)
    (hl : ∀ l', lo' = some l' → ∃ l, lo = some l ∧ l' ≤ l) : Memory.wfFrom lo' m := by
  cases m with
  | nil => exact Memory.wfFrom_nil _
  | cons c m =>
    obtain ⟨a, v⟩ := c
    rw [Memory.wfFrom_cons] at h ⊢
    refine ⟨fun l' hl' => ?_, h.2⟩
    obtain ⟨l, hlo, hle⟩ := hl l' hl'
    exact lt_of_le_of_lt hle (h.1 l hlo)

/-- Below the first address of a canonical list nothing is listed. -/
theorem Memory.read_of_wfFrom {lo a : Nat} {m : Memory} (h : Memory.wfFrom (some lo) m) (ha : a ≤ lo) :
    Memory.read m a = 0#8 := by
  induction m generalizing lo with
  | nil => rfl
  | cons c m ih =>
    obtain ⟨k, v⟩ := c
    rw [Memory.wfFrom_cons] at h
    have hk : lo < k := h.1 lo rfl
    have hne : k ≠ a := by omega
    simp only [Memory.read, hne, if_false]
    exact ih h.2.2 (by omega)

theorem Memory.read_place_self (a : Nat) (v : Byte) (m : Memory) (h : Memory.read m a = 0#8) :
    Memory.read (Memory.place a v m) a = v := by
  unfold Memory.place
  split
  · rename_i hv
    rw [h, hv]
    rfl
  · simp [Memory.read]

theorem Memory.read_place_other {a x : Nat} (v : Byte) (m : Memory) (h : x ≠ a) :
    Memory.read (Memory.place a v m) x = Memory.read m x := by
  unfold Memory.place
  split
  · rfl
  · simp [Memory.read, Ne.symm h]

/-- A write leaves every other address alone, in any list. -/
theorem Memory.read_write_other {a x : Nat} (m : Memory) (v : Byte) (h : x ≠ a) :
    Memory.read (Memory.write m a v) x = Memory.read m x := by
  induction m with
  | nil => simp [Memory.write, Memory.read_place_other v [] h]
  | cons c m ih =>
    obtain ⟨k, w⟩ := c
    unfold Memory.write
    split
    · rename_i hk
      rw [Memory.read_place_other v m h, Memory.read, if_neg (by omega)]
    · split
      · exact Memory.read_place_other v _ h
      · simp only [Memory.read, ih]

theorem Memory.read_write_self_from {lo : Option Nat} {m : Memory} (hm : Memory.wfFrom lo m) (a : Nat) (v : Byte) :
    Memory.read (Memory.write m a v) a = v := by
  induction m generalizing lo with
  | nil => exact Memory.read_place_self a v [] rfl
  | cons c m ih =>
    obtain ⟨k, w⟩ := c
    have hm' := hm
    rw [Memory.wfFrom_cons] at hm
    unfold Memory.write
    split
    · rename_i hk
      exact Memory.read_place_self a v m (Memory.read_of_wfFrom hm.2.2 (by omega))
    · rename_i hk
      split
      · rename_i hlt
        apply Memory.read_place_self
        simp only [Memory.read, hk, if_false]
        exact Memory.read_of_wfFrom hm.2.2 (by omega)
      · simp only [Memory.read, hk, if_false]
        exact ih hm.2.2

/-- A read after a write to the same address gives the byte written. -/
theorem Memory.read_write_self {m : Memory} (hm : Memory.wf m = true) (a : Nat) (v : Byte) :
    Memory.read (Memory.write m a v) a = v :=
  Memory.read_write_self_from ((Memory.wf_iff m).mp hm) a v

theorem Memory.read_write {m : Memory} (hm : Memory.wf m = true) (a x : Nat) (v : Byte) :
    Memory.read (Memory.write m a v) x = if x = a then v else Memory.read m x := by
  split
  · rename_i h
    rw [h, Memory.read_write_self hm]
  · rename_i h
    exact Memory.read_write_other m v h

theorem Memory.wfFrom_place {lo : Option Nat} {a : Nat} {v : Byte} {m : Memory} (hlo : ∀ l, lo = some l → l < a)
    (hm : Memory.wfFrom (some a) m) : Memory.wfFrom lo (Memory.place a v m) := by
  unfold Memory.place
  split
  · exact Memory.wfFrom_lower hm fun l hl => ⟨a, rfl, le_of_lt (hlo l hl)⟩
  · rename_i hv
    exact (Memory.wfFrom_cons lo a v m).mpr ⟨hlo, hv, hm⟩

theorem Memory.wfFrom_write {lo : Option Nat} {m : Memory} (hm : Memory.wfFrom lo m) (a : Nat) (v : Byte)
    (hlo : ∀ l, lo = some l → l < a) : Memory.wfFrom lo (Memory.write m a v) := by
  induction m generalizing lo with
  | nil => exact Memory.wfFrom_place hlo (Memory.wfFrom_nil _)
  | cons c m ih =>
    obtain ⟨k, w⟩ := c
    have hm' := hm
    rw [Memory.wfFrom_cons] at hm
    unfold Memory.write
    split
    · rename_i hk
      subst hk
      exact Memory.wfFrom_place hlo hm.2.2
    · rename_i hk
      split
      · rename_i hlt
        refine Memory.wfFrom_place hlo ?_
        exact (Memory.wfFrom_cons _ _ _ _).mpr ⟨fun l hl => by cases hl; exact hlt, hm.2⟩
      · refine (Memory.wfFrom_cons _ _ _ _).mpr ⟨hm.1, hm.2.1, ih hm.2.2 fun l hl => ?_⟩
        cases hl
        omega

/-- A write keeps the canonical form. -/
theorem Memory.wf_write {m : Memory} (hm : Memory.wf m = true) (a : Nat) (v : Byte) :
    Memory.wf (Memory.write m a v) = true :=
  (Memory.wf_iff _).mpr (Memory.wfFrom_write ((Memory.wf_iff m).mp hm) a v (by simp))

theorem Memory.below_place {n a : Nat} {m : Memory} (v : Byte) (hm : Memory.below n m = true) (ha : a < n) :
    Memory.below n (Memory.place a v m) = true := by
  unfold Memory.place
  split
  · exact hm
  · simpa [Memory.below, ha] using hm

/-- A write below the bound keeps the bound. -/
theorem Memory.below_write {n a : Nat} {m : Memory} (v : Byte) (hm : Memory.below n m = true) (ha : a < n) :
    Memory.below n (Memory.write m a v) = true := by
  induction m with
  | nil => exact Memory.below_place v rfl ha
  | cons c m ih =>
    obtain ⟨k, w⟩ := c
    have hm' : k < n ∧ Memory.below n m = true := by simpa [Memory.below] using hm
    unfold Memory.write
    split
    · exact Memory.below_place v hm'.2 ha
    · split
      · exact Memory.below_place v hm ha
      · simpa [Memory.below, hm'.1] using ih hm'.2

/-- A list of stores keeps the canonical form. -/
theorem Memory.wf_writeList {m : Memory} (hm : Memory.wf m = true) (base : Nat) (ws : List (Nat × Byte)) :
    Memory.wf (Memory.writeList m base ws) = true := by
  induction ws generalizing m with
  | nil => exact hm
  | cons w ws ih => exact ih (Memory.wf_write hm _ _)

/-- A list of stores below the bound keeps the bound. -/
theorem Memory.below_writeList {n : Nat} {m : Memory} (hm : Memory.below n m = true) (base : Nat) (ws : List (Nat × Byte))
    (hw : ∀ w ∈ ws, base + w.1 < n) : Memory.below n (Memory.writeList m base ws) = true := by
  induction ws generalizing m with
  | nil => exact hm
  | cons w ws ih =>
    exact ih (Memory.below_write _ hm (hw w (by simp))) fun x hx => hw x (by simp [hx])

/-- A list of stores leaves every address it does not name alone. -/
theorem Memory.read_writeList_other (m : Memory) (base x : Nat) (ws : List (Nat × Byte)) (hx : ∀ w ∈ ws, x ≠ base + w.1) :
    Memory.read (Memory.writeList m base ws) x = Memory.read m x := by
  induction ws generalizing m with
  | nil => rfl
  | cons w ws ih =>
    rw [Memory.writeList, ih _ fun y hy => hx y (by simp [hy]), Memory.read_write_other _ _ (hx w (by simp))]

/-- Reading after a list of stores, one store at a time. -/
theorem Memory.read_writeList_cons (m : Memory) (base : Nat) (w : Nat × Byte) (ws : List (Nat × Byte)) :
    Memory.writeList m base (w :: ws) = Memory.writeList (Memory.write m (base + w.1) w.2) base ws := rfl

/-- At or above the bound every address reads 0x00. -/
theorem Memory.read_of_below {n a : Nat} {m : Memory} (hm : Memory.below n m = true) (ha : n ≤ a) :
    Memory.read m a = 0#8 := by
  induction m with
  | nil => rfl
  | cons c m ih =>
    obtain ⟨k, v⟩ := c
    have hm' : k < n ∧ Memory.below n m = true := by simpa [Memory.below] using hm
    simp only [Memory.read, show k ≠ a by omega, if_false]
    exact ih hm'.2

/-- Canonical lists that read the same everywhere are the same list. -/
theorem Memory.ext_from {lo : Option Nat} {m m' : Memory} (hm : Memory.wfFrom lo m) (hm' : Memory.wfFrom lo m')
    (h : ∀ a, Memory.read m a = Memory.read m' a) : m = m' := by
  induction m generalizing lo m' with
  | nil =>
    cases m' with
    | nil => rfl
    | cons c r =>
      obtain ⟨k, v⟩ := c
      rw [Memory.wfFrom_cons] at hm'
      have := h k
      simp only [Memory.read, if_true] at this
      exact absurd this.symm hm'.2.1
  | cons c r ih =>
    obtain ⟨k, v⟩ := c
    rw [Memory.wfFrom_cons] at hm
    cases m' with
    | nil =>
      have := h k
      simp only [Memory.read, if_true] at this
      exact absurd this hm.2.1
    | cons c' r' =>
      obtain ⟨k', v'⟩ := c'
      rw [Memory.wfFrom_cons] at hm'
      have hk : k = k' := by
        rcases lt_trichotomy k k' with hlt | heq | hgt
        · have := h k
          simp only [Memory.read, if_true, show k' ≠ k by omega, if_false] at this
          rw [Memory.read_of_wfFrom hm'.2.2 (by omega)] at this
          exact absurd this hm.2.1
        · exact heq
        · have := h k'
          simp only [Memory.read, if_true, show k ≠ k' by omega, if_false] at this
          rw [Memory.read_of_wfFrom hm.2.2 (by omega)] at this
          exact absurd this.symm hm'.2.1
      subst hk
      have hv : v = v' := by simpa [Memory.read] using h k
      subst hv
      congr 1
      refine ih hm.2.2 hm'.2.2 fun a => ?_
      by_cases ha : k = a
      · subst ha
        rw [Memory.read_of_wfFrom hm.2.2 (le_refl _), Memory.read_of_wfFrom hm'.2.2 (le_refl _)]
      · simpa [Memory.read, ha] using h a

theorem Memory.ext_of_read {m m' : Memory} (hm : Memory.wf m = true) (hm' : Memory.wf m' = true)
    (h : ∀ a, Memory.read m a = Memory.read m' a) : m = m' :=
  Memory.ext_from ((Memory.wf_iff m).mp hm) ((Memory.wf_iff m').mp hm') h

end Sys2Proof.Machine
end

