-- ==== Sys2Proof/Laws/Ops.lean ====
section
/-! SUPPORT. For each shared operation, one lemma that says everything it can do; what a well-formed configuration gives; and the
inversions of `exec`, `runWord` and `step`. -/
namespace Sys2Proof

theorem Cfg.facts (c : Cfg) :
    c.polyOdd = true ∧ 7 ≤ c.teLen ∧ (∀ o ∈ c.teXOffsets, 1 ≤ o ∧ o < c.teLen) ∧ c.teXOffsets.Nodup
      ∧ (∀ t g, c.teBase t g + c.teLen ≤ Config.outLen t)
      ∧ ∀ t, c.teBase t .first + c.teLen ≤ c.teBase t .second ∨ c.teBase t .second + c.teLen ≤ c.teBase t .first := by
  have h := c.wf
  simp only [CfgRecord.wellFormed, CfgRecord.lenFits, CfgRecord.offsetsInField, CfgRecord.offsetsDistinct,
    CfgRecord.fieldsInside, CfgRecord.fieldsDisjoint, Bool.and_eq_true, Bool.or_eq_true, List.all_eq_true,
    decide_eq_true_eq] at h
  obtain ⟨⟨⟨⟨⟨⟨⟨hp, hl⟩, ho⟩, hd⟩, hiw⟩, hir⟩, hdw⟩, hdr⟩ := h
  refine ⟨hp, hl, ho, hd, ?_, ?_⟩
  · rintro (_ | _) (_ | _)
    exacts [hiw.1, hiw.2, hir.1, hir.2]
  · rintro (_ | _)
    exacts [hdw, hdr]

theorem Cfg.teBase_add_teLen_le (c : Cfg) (t : Transport) (g : Trigger) : c.teBase t g + c.teLen ≤ Config.outLen t :=
  c.facts.2.2.2.2.1 t g

theorem Cfg.teXOffset_lt (c : Cfg) {o : Nat} (h : o ∈ c.teXOffsets) : 1 ≤ o ∧ o < c.teLen := c.facts.2.2.1 o h

namespace Machine

theorem respond_eq (r : Response) (s : State) : respond r s = .next (s.withResp r) := rfl

/-- Everything a fault does (R133). -/
theorem raise_eq (c : Cause) (s : State) :
    raise c s = .next ((s.withErr (errAfter s.err c)).withResp (.fault c)) := rfl

theorem Cause.code_ne_zero (c : Cause) : c.code ≠ 0#3 := by cases c <;> decide

theorem Cause.code_le_four (c : Cause) : c.code.toNat ≤ 4 := by cases c <;> decide

theorem errAfter_of_zero (c : Cause) : errAfter 0#3 c = c.code := rfl

theorem errAfter_of_ne {e : BitVec 3} (h : e ≠ 0#3) (c : Cause) : errAfter e c = e := by simp [errAfter, h]

theorem errAfter_ne_zero (e : BitVec 3) (c : Cause) : errAfter e c ≠ 0#3 := by
  unfold errAfter
  split
  · exact c.code_ne_zero
  · assumption

theorem errAfter_le_four {e : BitVec 3} (h : e.toNat ≤ 4) (c : Cause) : (errAfter e c).toNat ≤ 4 := by
  unfold errAfter
  split
  · exact c.code_le_four
  · exact h

/-- Every byte a trigger effect stores lies in its field (R92). -/
theorem TriggerEffect.offset_lt (cfg : Cfg) (e : TriggerEffect) : ∀ w ∈ e.bytes cfg, w.1 < cfg.teLen := by
  have h7 := cfg.facts.2.1
  have hx : ∀ o ∈ cfg.teXOffsets, o < cfg.teLen := fun o ho => (cfg.teXOffset_lt ho).2
  simp only [CfgRecord.teXOffsets, List.mem_cons, List.not_mem_nil, or_false, forall_eq_or_imp, forall_eq] at hx
  intro w hw
  cases e with
  | extendedEffect start keep b m en q =>
    cases keep <;>
      simp only [TriggerEffect.bytes, TriggerEffect.parameterBytes, List.mem_cons, List.not_mem_nil, or_false,
        if_true, Bool.false_eq_true, if_false, List.append_nil, List.cons_append, List.nil_append] at hw
    · rcases hw with rfl | rfl | rfl | rfl | rfl | rfl <;> simp only <;> omega
    · rcases hw with rfl | rfl | rfl | rfl | rfl | rfl | rfl <;> simp only <;> omega
  | calibrate =>
    simp only [TriggerEffect.bytes, TriggerEffect.parameterBytes, List.mem_cons, List.not_mem_nil, or_false] at hw
    subst hw
    simp only
    omega
  | _ =>
    simp only [TriggerEffect.bytes, TriggerEffect.parameterBytes, List.mem_cons, List.not_mem_nil, or_false] at hw
    rcases hw with rfl | rfl | rfl <;> simp only <;> omega

/-- Everything encoding a trigger effect does: its bytes are stored in its field, inside the report. -/
theorem encodeTrigger_eq (g : Trigger) (e : TriggerEffect) (s : State) :
    encodeTrigger g e s = .next ((s.writeBytes (teBase s g) (e.bytes s.cfg)).withResp .ok) := rfl

theorem teBase_add_lt (s : State) (g : Trigger) (e : TriggerEffect) :
    ∀ w ∈ e.bytes s.cfg, teBase s g + w.1 < s.logicalLen := by
  intro w hw
  have h1 := e.offset_lt s.cfg w hw
  have h2 := s.cfg.teBase_add_teLen_le s.modeT g
  unfold teBase State.logicalLen
  omega

theorem takeMove_eq_none {s : State} (h : s.inputs = []) : takeMove s = none := by simp [takeMove, h]

theorem takeMove_eq_some {s : State} {m : HostMove} {rest : List HostMove} (h : s.inputs = m :: rest) :
    takeMove s = some (m, s.withInputs rest) := by simp [takeMove, h]

/-- Everything a step can be: nothing, the host's reset, or a command word run. -/
theorem step_cases (s : State) :
    (s.inputs = [] ∧ step s = .next s)
      ∨ (∃ rest, s.inputs = .reset :: rest ∧ step s = .next (hostReset (s.withInputs rest)))
      ∨ ∃ cw rest, s.inputs = .command cw :: rest ∧ step s = runWord cw (s.withInputs rest) := by
  cases h : s.inputs with
  | nil => exact .inl ⟨rfl, by simp [step, takeMove_eq_none h]⟩
  | cons m rest =>
    cases m with
    | reset => exact .inr (.inl ⟨rest, rfl, by simp [step, takeMove_eq_some h, performMove]⟩)
    | command cw => exact .inr (.inr ⟨cw, rest, rfl, by simp [step, takeMove_eq_some h, performMove]⟩)

/-- Everything running a word can be: the command it encodes, or `IllegalCommand`. -/
theorem runWord_cases (cw : CommandWord) (s : State) :
    (∃ i, decode cw = .ok i ∧ runWord cw s = exec i s)
      ∨ ∃ e, decode cw = .error e ∧ runWord cw s = raise .illegalCommand s := by
  unfold runWord
  cases decode cw with
  | ok i => exact .inl ⟨i, rfl, rfl⟩
  | error e => exact .inr ⟨e, rfl, rfl⟩

/-- Everything a command can be: a fault of the block with nothing else changed, or a response that is no fault, with the
registers the command does not name as they were. -/
theorem exec_cases (i : Instr) (s : State) :
    (∃ c, exec i s = raise c s)
      ∨ ∃ t r, exec i s = respond r t ∧ (∀ c, r ≠ .fault c) ∧ t.err = s.err ∧ t.cfg = s.cfg ∧ t.inputs = s.inputs
        ∧ t.draws = s.draws := by
  cases i <;>
    simp only [exec, execModeSet, execRbClr, execRbWr, execRbRd, execCrcInit, execCrcByte, execCrcFin, execCksum, execSeal,
      execDpadDec, execTeNone, execTeCont, execTeSect, execTeExt, execTeCal, encodeTrigger]
  case sealReport =>
    cases s.modeT <;> exact .inr ⟨_, _, rfl, by simp, by simp, by simp, by simp, by simp⟩
  all_goals first
    | exact .inr ⟨_, _, rfl, by simp, by simp, by simp, by simp, by simp⟩
    | (split
       · exact .inr ⟨_, _, rfl, by simp, by simp, by simp, by simp, by simp⟩
       · exact .inl ⟨_, rfl⟩)

end Machine
end Sys2Proof
end

