-- ==== Sys2Proof/Laws/Exec.lean ====
section
/-! SUPPORT. Each command's meaning as an equation over the named updates, one per case of its rule; what a byte reads after each
update; and that a checksum depends on the configuration and the bytes of its range alone. -/
namespace Sys2Proof.Machine

@[simp] theorem State.byteAt_withMode (s : State) (t : Transport) (x : Nat) : (s.withMode t).byteAt x = s.byteAt x := by
  simp [State.byteAt]

@[simp] theorem State.byteAt_withAcc (s : State) (a : Word) (x : Nat) : (s.withAcc a).byteAt x = s.byteAt x := by
  simp [State.byteAt]

@[simp] theorem State.byteAt_withNewAcc (s : State) (a : Word) (x : Nat) : (s.withNewAcc a).byteAt x = s.byteAt x := by
  simp [State.byteAt]

@[simp] theorem State.byteAt_withErr (s : State) (e : BitVec 3) (x : Nat) : (s.withErr e).byteAt x = s.byteAt x := by
  simp [State.byteAt]

@[simp] theorem State.byteAt_withResp (s : State) (r : Response) (x : Nat) : (s.withResp r).byteAt x = s.byteAt x := by
  simp [State.byteAt]

@[simp] theorem State.byteAt_withInputs (s : State) (ms : List HostMove) (x : Nat) : (s.withInputs ms).byteAt x = s.byteAt x := by
  simp [State.byteAt]

@[simp] theorem State.byteAt_clearRb (s : State) (x : Nat) : s.clearRb.byteAt x = 0x00#8 := by
  simp [State.byteAt]

@[simp] theorem State.byteAt_withRb (s : State) (m : Memory) (x : Nat) : (s.withRb m).byteAt x = Memory.read m x := by
  simp [State.byteAt]

theorem State.byteAt_writeByte {s : State} (h : Memory.wf s.rb = true) (a x : Nat) (v : Byte) :
    (s.writeByte a v).byteAt x = if x = a then v else s.byteAt x := by
  simp [State.byteAt, Memory.read_write h]

/-- Four byte stores, least significant byte first (R34). -/
theorem State.byteAt_writeWord {s : State} (h : Memory.wf s.rb = true) (a x : Nat) (w : Word) :
    (s.writeWord a w).byteAt x =
      if x = a then w.extractLsb' 0 8 else if x = a + 1 then w.extractLsb' 8 8
      else if x = a + 2 then w.extractLsb' 16 8 else if x = a + 3 then w.extractLsb' 24 8 else s.byteAt x := by
  have h1 := Memory.wf_write h (a + 0) (w.extractLsb' 0 8)
  have h2 := Memory.wf_write h1 (a + 1) (w.extractLsb' 8 8)
  have h3 := Memory.wf_write h2 (a + 2) (w.extractLsb' 16 8)
  simp only [State.byteAt, State.writeWord_rb, littleEndian, Memory.writeList, Memory.read_write h3, Memory.read_write h2,
    Memory.read_write h1, Memory.read_write h]
  by_cases e3 : x = a + 3 <;> by_cases e2 : x = a + 2 <;> by_cases e1 : x = a + 1 <;> by_cases e0 : x = a <;>
    simp [e0, e1, e2, e3]

theorem State.leadingBytes_congr {s t : State} {n : Nat} (h : ∀ j, j < n → s.byteAt j = t.byteAt j) :
    s.leadingBytes n = t.leadingBytes n := by
  unfold State.leadingBytes
  exact List.map_congr_left fun a ha => h a (List.mem_range.mp ha)

@[simp] theorem State.length_leadingBytes (s : State) (n : Nat) : (s.leadingBytes n).length = n := by
  simp [State.leadingBytes]

theorem State.fold_congr {s t : State} {n : Nat} (hc : s.cfg = t.cfg) (h : ∀ j, j < n → s.byteAt j = t.byteAt j) :
    s.fold n = t.fold n := by
  simp only [State.fold, hc, State.leadingBytes_congr h]

theorem State.checksum_congr {s t : State} {n : Nat} (hc : s.cfg = t.cfg) (h : ∀ j, j < n → s.byteAt j = t.byteAt j) :
    s.checksum n = t.checksum n := by
  simp only [State.checksum, hc, State.fold_congr hc h]

theorem exec_modeSet (t : Transport) (s : State) :
    exec (.modeSet t) s = .next ((s.withMode t).clearRb.withResp .ok) := rfl

theorem exec_rbClr (s : State) : exec .rbClr s = .next (s.clearRb.withResp .ok) := rfl

theorem exec_rbWr {s : State} {a : Offset} (d : Byte) (h : a.toNat < s.logicalLen) :
    exec (.rbWr a d) s = .next ((s.writeByte a.toNat d).withResp .ok) := by
  simp [exec, execRbWr, validOffset, h, respond_eq]

theorem exec_rbWr_fault {s : State} {a : Offset} (d : Byte) (h : s.logicalLen ≤ a.toNat) :
    exec (.rbWr a d) s = raise .addressFault s := by
  simp [exec, execRbWr, validOffset, Nat.not_lt.mpr h]

theorem exec_rbRd {s : State} {a : Offset} (h : a.toNat < s.logicalLen) :
    exec (.rbRd a) s = .next (s.withResp (.byte (s.byteAt a.toNat))) := by
  simp [exec, execRbRd, validOffset, h, respond_eq]

theorem exec_rbRd_fault {s : State} {a : Offset} (h : s.logicalLen ≤ a.toNat) :
    exec (.rbRd a) s = raise .addressFault s := by
  simp [exec, execRbRd, validOffset, Nat.not_lt.mpr h]

theorem exec_crcInit (s : State) : exec .crcInit s = .next ((s.withNewAcc (crcStart s.cfg)).withResp .ok) := rfl

theorem exec_crcByte {s : State} (d : Byte) (h : s.accv = true) :
    exec (.crcByte d) s = .next ((s.withAcc (crcStep s.cfg s.acc d)).withResp .ok) := by
  simp only [exec, execCrcByte, h, if_true, respond_eq]

theorem exec_crcByte_fault {s : State} (d : Byte) (h : s.accv = false) :
    exec (.crcByte d) s = raise .sequenceFault s := by
  simp [exec, execCrcByte, h]

theorem exec_crcFin {s : State} (h : s.accv = true) :
    exec .crcFin s = .next (s.withResp (.word (crcFinal s.cfg s.acc))) := by
  simp only [exec, execCrcFin, h, if_true, respond_eq]

theorem exec_crcFin_fault {s : State} (h : s.accv = false) : exec .crcFin s = raise .sequenceFault s := by
  simp [exec, execCrcFin, h]

theorem exec_cksum {s : State} {n : Offset} (h : n.toNat ≤ s.logicalLen) :
    exec (.cksum n) s = .next ((s.withNewAcc (s.fold n.toNat)).withResp (.word (s.checksum n.toNat))) := by
  simp only [exec, execCksum, validLength, h, decide_true, if_true, respond_eq]

theorem exec_cksum_fault {s : State} {n : Offset} (h : s.logicalLen < n.toNat) :
    exec (.cksum n) s = raise .lengthFault s := by
  simp [exec, execCksum, validLength, Nat.not_le.mpr h]

theorem exec_sealReport_wireless {s : State} (h : s.modeT = .wirelessRadio) :
    exec .sealReport s = .next (((s.withNewAcc (s.fold Config.cksLen)).writeWord Config.cksOff
      (s.checksum Config.cksLen)).withResp (.word (s.checksum Config.cksLen))) := by
  simp only [exec, execSeal, h, respond_eq]

theorem exec_sealReport_wired {s : State} (h : s.modeT = .wired) : exec .sealReport s = .next (s.withResp .ok) := by
  simp only [exec, execSeal, h, respond_eq]

theorem exec_dpadDec (b : Byte) (s : State) :
    exec (.dpadDec b) s = .next (s.withResp (.dpad (dpadRom s.cfg (lowNibble b)))) := rfl

/-- The effect that the `TE.*` commands carry: a `TE.*` command is the encoding of one trigger effect (R80, R83 to R88). -/
theorem exec_of_triggerOf {i : Instr} {g : Trigger} (h : triggerOf i = some g) :
    ∃ e, ∀ s, exec i s = encodeTrigger g e s := by
  cases i <;> cases h
  exacts [⟨_, fun _ => rfl⟩, ⟨_, fun _ => rfl⟩, ⟨_, fun _ => rfl⟩, ⟨_, fun _ => rfl⟩, ⟨_, fun _ => rfl⟩]

end Sys2Proof.Machine
end

