-- ==== Sys2Proof/Laws/PerInstr.lean ====
section
/-! SUPPORT. Per command: its word matches a row of the decoding table, and that row's fields read the command back (R51, R55,
R56). With the rows disjoint this is what decoding an encoded command rests on. -/
namespace Sys2Proof.Laws.EncodedRow

/-- The word of `i` matches a row of R55 whose operands read `i` back. -/
def Statement (i : Instr) : Prop := ∃ r ∈ decodeRows, r.matchesWord (encode i) = true ∧ r.build (encode i) = i

/-- The `n`-th row serves. -/
theorem of_row {i : Instr} (n : Fin decodeRows.length) (h : (encode i &&& decodeRows[n].mask) = decodeRows[n].pattern)
    (hb : decodeRows[n].build (encode i) = i) : Statement i :=
  ⟨decodeRows[n], List.getElem_mem n.isLt, beq_iff_eq.mpr h, hb⟩

theorem modeSet (t : Transport) : Statement (.modeSet t) :=
  of_row ⟨0, by decide⟩ ((formatM_mask _ _).trans (by simp only [Instr.op]; decide)) (congrArg Instr.modeSet (fieldT_formatM _ t))

theorem rbClr : Statement .rbClr := of_row ⟨1, by decide⟩ (by decide) rfl

theorem rbWr (a : Offset) (d : Byte) : Statement (.rbWr a d) :=
  of_row ⟨2, by decide⟩ ((formatW_mask _ _ _).trans (by simp only [Instr.op]; decide))
    (congrArg₂ Instr.rbWr (fieldAddr_formatW _ a d) (fieldImm8_formatW _ a d))

theorem rbRd (a : Offset) : Statement (.rbRd a) :=
  of_row ⟨3, by decide⟩ ((formatA_mask _ _).trans (by simp only [Instr.op]; decide)) (congrArg Instr.rbRd (fieldAddr_formatA _ a))

theorem crcInit : Statement .crcInit := of_row ⟨4, by decide⟩ (by decide) rfl

theorem crcByte (d : Byte) : Statement (.crcByte d) :=
  of_row ⟨5, by decide⟩ ((formatB_mask _ _).trans (by simp only [Instr.op]; decide)) (congrArg Instr.crcByte (fieldImm8_formatB _ d))

theorem crcFin : Statement .crcFin := of_row ⟨6, by decide⟩ (by decide) rfl

theorem cksum (n : Offset) : Statement (.cksum n) :=
  of_row ⟨7, by decide⟩ ((formatA_mask _ _).trans (by simp only [Instr.op]; decide)) (congrArg Instr.cksum (fieldAddr_formatA _ n))

theorem sealReport : Statement .sealReport := of_row ⟨8, by decide⟩ (by decide) rfl

theorem dpadDec (b : Byte) : Statement (.dpadDec b) :=
  of_row ⟨9, by decide⟩ ((formatB_mask _ _).trans (by simp only [Instr.op]; decide)) (congrArg Instr.dpadDec (fieldImm8_formatB _ b))

theorem teNone (g : Trigger) : Statement (.teNone g) :=
  of_row ⟨10, by decide⟩ ((formatT_mask_none _ _).trans (by simp only [Instr.op]; decide))
    (congrArg Instr.teNone (fieldG_formatT _ g _ _ _ _ _ _))

theorem teCont (g : Trigger) (start force : Byte) : Statement (.teCont g start force) :=
  of_row ⟨11, by decide⟩ ((formatT_mask_two _ _ _ _).trans (by simp only [Instr.op]; decide)) (by
    show Instr.teCont _ _ _ = _
    simp only [encode, fieldG_formatT, fieldStart_formatT, fieldP2_formatT])

theorem teSect (g : Trigger) (start force : Byte) : Statement (.teSect g start force) :=
  of_row ⟨12, by decide⟩ ((formatT_mask_two _ _ _ _).trans (by simp only [Instr.op]; decide)) (by
    show Instr.teSect _ _ _ = _
    simp only [encode, fieldG_formatT, fieldStart_formatT, fieldP2_formatT])

theorem teExt (g : Trigger) (start : Byte) (keep : Bool) (beginF middleF endF freq : Byte) :
    Statement (.teExt g start keep beginF middleF endF freq) :=
  of_row ⟨13, by decide⟩ ((formatT_mask _ _ _ _ _ _ _ _).trans (by simp only [Instr.op]; decide)) (by
    show Instr.teExt _ _ _ _ _ _ _ = _
    simp only [encode, fieldG_formatT, fieldStart_formatT, fieldP2_formatT, fieldMid_formatT, fieldEnd_formatT,
      fieldFreq_formatT, fieldKeep_formatT])

theorem teCal (g : Trigger) : Statement (.teCal g) :=
  of_row ⟨14, by decide⟩ ((formatT_mask_none _ _).trans (by simp only [Instr.op]; decide))
    (congrArg Instr.teCal (fieldG_formatT _ g _ _ _ _ _ _))

end Sys2Proof.Laws.EncodedRow
end

