-- ==== Sys2Proof/Tests/Slice0.lean ====
section
/-! SUPPORT. Tests: ill-formed configurations, the spec's command words, one step of each command with the results of
95_test_vectors.md (values under cfg_ref are marked so there), and a witness for the hypotheses of each statement. -/
namespace Sys2Proof.Tests
open Sys2Proof.Machine

/-- The state after a command (the state itself where there is none, which no command gives). -/
def after (i : Instr) (s : State) : State :=
  match exec i s with
  | .next t => t
  | .fault _ => s
  | .refused _ => s

/-- The state after one step. -/
def afterStep (s : State) : State :=
  match step s with
  | .next t => t
  | .fault _ => s
  | .refused _ => s

/-- A command is a next state. -/
theorem exec_after (i : Instr) (s : State) : exec i s = .next (after i s) := by
  rcases exec_cases i s with ⟨c, h⟩ | ⟨t, r, h, -⟩ <;> simp [after, h, raise_eq, respond_eq]

/-- Reset, then wireless mode. -/
def wireless : State := after (.modeSet .wirelessRadio) State.reset

/-- Wireless mode with a valid accumulator and a byte in the report. -/
def busy : State := (after .crcInit wireless).writeByte 5 0x7F#8

/-- Reset with one word presented. -/
def presented (cw : CommandWord) : State := presentWord State.reset cw

/-- Reset with the host's reset action waiting, a recorded fault, and a valid accumulator. -/
def resetWaiting : State := ((State.reset.withErr 4#3).withNewAcc 1#32).withInputs [.reset]

section WellFormedness
/- R7: for each item a record that it refuses, and cfg_ref, which passes. -/

theorem test_ref_well_formed : Config.refRecord.wellFormed = true := by decide
theorem test_even_poly_refused :
    CfgRecord.polyOdd { Config.refRecord with crcPoly := 0x04C11DB6#32 } = false := by decide
theorem test_even_poly_ill_formed :
    CfgRecord.wellFormed { Config.refRecord with crcPoly := 0#32 } = false := by decide
theorem test_short_field_refused : CfgRecord.lenFits { Config.refRecord with teLen := 6 } = false := by decide
theorem test_offset_zero_refused : CfgRecord.offsetsInField { Config.refRecord with teXStartOff := 0 } = false := by decide
theorem test_offset_past_field_refused :
    CfgRecord.offsetsInField { Config.refRecord with teXFreqOff := 11 } = false := by decide
theorem test_equal_offsets_refused :
    CfgRecord.offsetsDistinct { Config.refRecord with teXMidOff := 4 } = false := by decide
theorem test_wired_field_outside_refused :
    CfgRecord.fieldsInside { Config.refRecord with teBaseWired1 := 38 } .wired = false := by decide
theorem test_wired_field_at_end_accepted :
    CfgRecord.fieldsInside { Config.refRecord with teBaseWired1 := 37 } .wired = true := by decide
theorem test_wireless_field_outside_refused :
    CfgRecord.fieldsInside { Config.refRecord with teBaseWireless0 := 537 } .wirelessRadio = false := by decide
theorem test_overlapping_fields_refused :
    CfgRecord.fieldsDisjoint { Config.refRecord with teBaseWireless1 := 22 } .wirelessRadio = false := by decide

end WellFormedness

section Decoding
/- 95_test_vectors.md section 2.1, word by word. -/

theorem test_decode_modeSet : decode 0x0100000000000001#64 = .ok (.modeSet .wirelessRadio) := by decide
theorem test_decode_rbClr : decode 0x0200000000000000#64 = .ok .rbClr := by decide
theorem test_decode_rbWr : decode 0x0300000000004AA9#64 = .ok (.rbWr 74#10 0xA9#8) := by decide
theorem test_decode_rbRd : decode 0x0400000000022200#64 = .ok (.rbRd 546#10) := by decide
theorem test_decode_crcInit : decode 0x1000000000000000#64 = .ok .crcInit := by decide
theorem test_decode_crcByte : decode 0x1100000000000031#64 = .ok (.crcByte 0x31#8) := by decide
theorem test_decode_crcFin : decode 0x1200000000000000#64 = .ok .crcFin := by decide
theorem test_decode_cksum : decode 0x1300000000004A00#64 = .ok (.cksum 74#10) := by decide
theorem test_decode_seal : decode 0x1400000000000000#64 = .ok .sealReport := by decide
theorem test_decode_dpadDec : decode 0x2000000000000083#64 = .ok (.dpadDec 0x83#8) := by decide
theorem test_decode_teNone : decode 0x3080000000000000#64 = .ok (.teNone .second) := by decide
theorem test_decode_teCont : decode 0x31000A1400000000#64 = .ok (.teCont .first 10#8 20#8) := by decide
theorem test_decode_teSect : decode 0x320040FF00000000#64 = .ok (.teSect .first 0x40#8 0xFF#8) := by decide
theorem test_decode_teExt :
    decode 0x3380203040500901#64 = .ok (.teExt .second 0x20#8 true 0x30#8 0x40#8 0x50#8 9#8) := by decide
theorem test_decode_teCal : decode 0x3480000000000000#64 = .ok (.teCal .second) := by decide
theorem test_illegal_zero : decode 0x0000000000000000#64 = .error (.unknownOp 0x00#8) := by decide
theorem test_illegal_tag_five : decode 0x3500000000000000#64 = .error (.unknownOp 0x35#8) := by decide
theorem test_illegal_teNone_start : decode 0x3000010000000000#64 = .error (.reservedBits 0x30#8) := by decide
theorem test_illegal_teCont_keep : decode 0x3100000000000001#64 = .error (.reservedBits 0x31#8) := by decide
theorem test_illegal_seal_bit : decode 0x1400000000000001#64 = .error (.reservedBits 0x14#8) := by decide
theorem test_illegal_rbRd_low : decode 0x0400000000000001#64 = .error (.reservedBits 0x04#8) := by decide
theorem test_illegal_cksum_bit18 : decode 0x1300000000040000#64 = .error (.reservedBits 0x13#8) := by decide
theorem test_illegal_op_ff : decode 0xFF00000000000000#64 = .error (.unknownOp 0xFF#8) := by decide
theorem test_table_word : decodeTableWord 64 0x31000A1400000000 = some (.teCont .first 10#8 20#8) := by decide
theorem test_encode_teExt :
    encode (.teExt .first 255#8 true 255#8 255#8 255#8 255#8) = 0x3300FFFFFFFFFF01#64 := by decide
theorem test_assemble_line : asmLine "TE.CONT 0, 10, 20".toList = some (some (.teCont .first 10#8 20#8)) := by decide

end Decoding

section Commands

/- R120, section 2.4. -/
theorem test_modeSet_clears : (after (.modeSet .wired) busy).byteAt 5 = 0#8 := by decide
theorem test_modeSet_mode : wireless.modeT = .wirelessRadio := by decide

/- R121, section 2.4: the accumulator stays valid. -/
theorem test_rbClr : (after .rbClr busy).rb = [] ∧ (after .rbClr busy).accv = true := by decide

/- R122, section 2.4: the last byte of each transport, and the first beyond it. -/
theorem test_rbWr_wired_edge :
    (after (.rbWr 47#10 1#8) State.reset).byteAt 47 = 1#8
      ∧ (after (.rbWr 48#10 1#8) State.reset).resp = some (.fault .addressFault) := by decide
theorem test_rbWr_wireless_edge :
    (after (.rbWr 546#10 1#8) wireless).byteAt 546 = 1#8 ∧ (after (.rbWr 547#10 1#8) wireless).err = 2#3 := by decide

/- R123, section 2.4. -/
theorem test_rbRd : (after (.rbRd 5#10) busy).resp = some (.byte 0x7F#8) := by decide
theorem test_rbRd_fault : (after (.rbRd 1023#10) wireless).resp = some (.fault .addressFault) := by decide

/- R105, section 3.1: crc_start() under cfg_ref. -/
theorem test_crcInit : (after .crcInit State.reset).acc = 0x6D4BA4A8#32 := by decide

/- R106, section 3.2, and section 2.5. -/
theorem test_crcByte : (after (.crcByte 0x00#8) (after .crcInit State.reset)).acc = 0xD6CCE844#32 := by decide +kernel
theorem test_crcByte_fault : (after (.crcByte 0x00#8) State.reset).err = 4#3 := by decide

/- R107, section 3.1, and section 2.5. -/
theorem test_crcFin : (after .crcFin (after .crcInit State.reset)).resp = some (.word 0xEADA2D49#32) := by decide +kernel
theorem test_crcFin_fault : (after .crcFin State.reset).resp = some (.fault .sequenceFault) := by decide

/- R108, section 3.2 (one byte 0x80), and section 2.5. -/
theorem test_cksum : (after (.cksum 1#10) (State.reset.writeByte 0 0x80#8)).resp = some (.word 0x30504FB4#32) := by decide +kernel
theorem test_cksum_fault : (after (.cksum 49#10) State.reset).err = 3#3 := by decide

/- R109: 74 zero bytes under cfg_ref, least significant byte first; nothing in wired mode. -/
theorem test_seal_wireless :
    (after .sealReport wireless).rb = [(74, 0xA9#8), (75, 0x90#8), (76, 0xAA#8), (77, 0x0E#8)] := by decide +kernel
theorem test_seal_wired : after .sealReport State.reset = State.reset.withResp .ok := by decide

/- R74, section 2.2. -/
theorem test_dpadDec : (after (.dpadDec 0x83#8) State.reset).resp = some (.dpad ⟨false, true, false, true⟩) := by decide
theorem test_dpadDec_none : (after (.dpadDec 0xF8#8) State.reset).resp = some (.dpad ⟨false, false, false, false⟩) := by
  decide

/- R83 to R88, section 2.3: over bytes 0xEE, under cfg_ref, what is written and what is left. -/
theorem test_teNone : (after (.teNone .first) (State.reset.writeBytes 11 [(0, 0xEE#8), (2, 0xEE#8), (3, 0xEE#8)])).rb
    = [(14, 0xEE#8)] := by decide
theorem test_teCont : (after (.teCont .first 255#8 255#8) State.reset).rb
    = [(11, 0x01#8), (12, 0xFF#8), (13, 0xFF#8)] := by decide
theorem test_teSect : (after (.teSect .first 1#8 2#8) State.reset).rb
    = [(11, 0x02#8), (12, 0x01#8), (13, 0x02#8)] := by decide
theorem test_teExt : (after (.teExt .second 0x10#8 true 0x11#8 0x22#8 0x33#8 5#8) State.reset).rb
    = [(22, 0x26#8), (23, 0xEF#8), (24, 0x02#8), (26, 0x11#8), (27, 0x22#8), (28, 0x33#8), (31, 0x02#8)] := by decide
theorem test_teExt_keep_untouched :
    (after (.teExt .first 0x20#8 false 0x30#8 0x40#8 0x50#8 9#8) (State.reset.writeByte 13 0xEE#8)).rb
    = [(11, 0x26#8), (12, 0xDF#8), (13, 0xEE#8), (15, 0x30#8), (16, 0x40#8), (17, 0x50#8), (20, 0x04#8)] := by decide
theorem test_teCal : (after (.teCal .first) (State.reset.writeByte 12 0xEE#8)).rb = [(11, 0xFC#8), (12, 0xEE#8)] := by
  decide

/- R133, R134: the first cause is kept. -/
theorem test_first_cause_kept : (after (.rbWr 48#10 1#8) (after .crcFin State.reset)).err = 4#3 := by decide

/- A step performs the word presented; an illegal word, section 2.5. -/
theorem test_step_word : (afterStep (State.reset.withFetchWord 64 0x2000000000000083)).resp
    = some (.dpad ⟨false, true, false, true⟩) := by decide
theorem test_step_illegal : (afterStep (presented 0#64)).err = 1#3 := by decide

/- R101, R103, section 3.1: the reflections, the traced step, the final value. -/
theorem test_reflect : (0x01#8).reverse = 0x80#8 ∧ (0x00000001#32).reverse = 0x80000000#32 := by decide +kernel
theorem test_crc_step_traced : crcStep Config.ref 0xFFFFFFFF#32 0xA2#8 = 0x6D4BA4A8#32 := by decide +kernel
theorem test_crc_final : crcFinal Config.ref 0x6D4BA4A8#32 = 0xEADA2D49#32 := by decide +kernel

/- Section 3.5: CRC-32/MPEG-2 and CRC-32/ISO-HDLC over "123456789". -/
def digits : List Byte := [0x31#8, 0x32#8, 0x33#8, 0x34#8, 0x35#8, 0x36#8, 0x37#8, 0x38#8, 0x39#8]
def mpeg2 : Cfg where
  toCfgRecord := { Config.refRecord with crcRefIn := false, crcRefOut := false, crcXorOut := 0#32, crcSeed := none }
  wf := by decide
def isoHdlc : Cfg where
  toCfgRecord := { Config.refRecord with crcSeed := none }
  wf := by decide
theorem test_crc_mpeg2 : crcOf mpeg2 digits = 0x0376E6E7#32 := by decide +kernel
theorem test_crc_iso_hdlc : crcOf isoHdlc digits = 0xCBF43926#32 := by decide +kernel

/- R53: the payload of SE under R73. -/
theorem test_response_bits : (Response.dpad ⟨false, true, false, true⟩).bits = 0x30000000A#35 := by decide

end Commands

section Witnesses
/- For each statement with hypotheses, a state and operands that meet them together; for several clauses, one each at a boundary. -/

theorem witness_EncodeOfDecode : decode (0x0200000000000000#64) = .ok .rbClr := by decide

theorem witness_IllegalWords : ∃ e, decode (0#64) = .error e := ⟨.unknownOp 0#8, by decide⟩

theorem witness_ResponseBinaryForm : (presented 0#64).inputs = .command 0#64 :: [] := rfl

theorem witness_ResponseBinaryForm_injective : (Response.byte 1#8).bits = (Response.byte 1#8).bits := rfl

theorem witness_AssembledWordsAreLegal : assemble ["SEAL".toList] = some [0x1400000000000000#64] := by decide

theorem witness_StepRunsDecoded :
    (presented 0x1400000000000000#64).inputs = .command 0x1400000000000000#64 :: []
      ∧ decode 0x1400000000000000#64 = .ok .sealReport := ⟨rfl, by decide⟩

theorem witness_StepWithoutInput : State.reset.inputs = [] := rfl

theorem witness_HostResetRestores : resetWaiting.inputs = .reset :: [] := rfl

theorem witness_OnlyResetClears :
    ∃ t, step resetWaiting = .next t ∧ resetWaiting.err ≠ 0#3 ∧ t.err ≠ resetWaiting.err ∧ resetWaiting.accv = true
      ∧ t.accv = false := ⟨_, rfl, by decide, by decide, by decide, rfl⟩

theorem witness_ConfigurationIsConstant : ∃ t, step State.reset = .next t := ⟨_, rfl⟩

theorem witness_ModeChangesByModeSetOnly :
    ∃ t, step (presented 0x0100000000000001#64) = .next t ∧ t.modeT ≠ (presented 0x0100000000000001#64).modeT :=
  ⟨afterStep (presented 0x0100000000000001#64), rfl, by decide⟩

theorem witness_PortRunsCommandsInOrder :
    (presented 0x1000000000000000#64).inputs = [Instr.crcInit].map fun i => HostMove.command (encode i) := by decide

theorem witness_RbWrStoresOneByte :
    Memory.wf State.reset.rb = true ∧ (47#10).toNat < Config.outLen State.reset.modeT
      ∧ Config.outLen State.reset.modeT ≤ (48#10).toNat ∧ Memory.wf wireless.rb = true
      ∧ (546#10).toNat < Config.outLen wireless.modeT ∧ Config.outLen wireless.modeT ≤ (547#10).toNat := by decide

theorem witness_RbRdReadsOneByte :
    (47#10).toNat < Config.outLen State.reset.modeT ∧ Config.outLen State.reset.modeT ≤ (48#10).toNat := by decide

theorem witness_ReadAfterWrite :
    ∃ t, Memory.wf State.reset.rb = true ∧ (47#10).toNat < Config.outLen State.reset.modeT
      ∧ (46#10).toNat < Config.outLen State.reset.modeT ∧ exec (.rbWr 47#10 0xFF#8) State.reset = .next t :=
  ⟨after (.rbWr 47#10 0xFF#8) State.reset, by decide, by decide, by decide, rfl⟩

theorem witness_CrcByteAbsorbsOneByte : busy.accv = true ∧ State.reset.accv = false := by decide

theorem witness_CrcFinKeepsTheAccumulator : busy.accv = true ∧ State.reset.accv = false := by decide

theorem witness_CksumOfAPrefix :
    (48#10).toNat ≤ Config.outLen State.reset.modeT ∧ Config.outLen State.reset.modeT < (49#10).toNat := by decide

theorem witness_SealStoresTheChecksum :
    Memory.wf busy.rb = true ∧ busy.modeT = .wirelessRadio ∧ State.reset.modeT = .wired := by decide

theorem witness_SealedFieldIsLittleEndian :
    ∃ u, Memory.wf busy.rb = true ∧ busy.modeT = .wirelessRadio ∧ exec .sealReport busy = .next u ∧ 3 < 4 :=
  ⟨_, by decide, by decide, exec_after _ _, by decide⟩

theorem witness_SealTwiceIsSealOnce : ∃ u, Memory.wf busy.rb = true ∧ exec .sealReport busy = .next u :=
  ⟨_, by decide, exec_after _ _⟩

theorem witness_CksumEqualsStreaming : (48#10).toNat ≤ Config.outLen State.reset.modeT := by decide

theorem witness_SealEqualsCksumAndStores : Memory.wf busy.rb = true ∧ busy.modeT = .wirelessRadio := by decide

theorem witness_ChecksumSeesOneChangedByte :
    busy.cfg = wireless.cfg ∧ 5 < 74 ∧ busy.byteAt 5 ≠ wireless.byteAt 5
      ∧ ∀ j, j < 74 → j ≠ 5 → busy.byteAt j = wireless.byteAt j := by decide +kernel

theorem witness_ChecksumXorLaw :
    wireless.cfg = busy.cfg ∧ wireless.cfg = busy.cfg ∧ busy.cfg = busy.cfg
      ∧ ∀ i, i < 74 → busy.byteAt i = busy.byteAt i ^^^ wireless.byteAt i ^^^ wireless.byteAt i := by decide +kernel

theorem witness_ReflectedFormIsEquivalent : Config.ref.crcRefIn = true ∧ Config.ref.crcRefOut = true := by decide

theorem witness_RbWrAfterSealIsStale :
    ∃ u v, Memory.wf busy.rb = true ∧ busy.modeT = .wirelessRadio ∧ exec .sealReport busy = .next u ∧ (73#10).toNat < 74
      ∧ 1#8 ≠ u.byteAt (73#10).toNat ∧ exec (.rbWr 73#10 1#8) u = .next v :=
  ⟨_, _, by decide, by decide, exec_after _ _, by decide, by decide +kernel, exec_after _ _⟩

theorem witness_TriggerChangeAfterSealIsStale :
    ∃ u v, Memory.wf busy.rb = true ∧ busy.modeT = .wirelessRadio ∧ exec .sealReport busy = .next u
      ∧ triggerOf (.teCal .first) = some .first ∧ teBase u .first + u.cfg.teLen ≤ Config.cksLen
      ∧ exec (.teCal .first) u = .next v ∧ 12 < Config.cksLen ∧ v.byteAt 12 ≠ u.byteAt 12
      ∧ ∀ y, y < Config.cksLen → y ≠ 12 → v.byteAt y = u.byteAt y :=
  ⟨_, _, by decide, by decide, exec_after _ _, rfl, by decide +kernel, exec_after _ _, by decide, by decide +kernel,
    by decide +kernel⟩

theorem witness_OneAccumulator :
    (48#10).toNat ≤ Config.outLen State.reset.modeT ∧ wireless.modeT = .wirelessRadio := by decide

theorem witness_DpadProperties : (0xF3#8).toNat % 16 = (0x03#8).toNat % 16 := by decide

theorem witness_DpadTableDecided : Config.ref.dpadMap = #v[.n, .ne, .e, .se, .s, .sw, .w, .nw] := by decide

theorem witness_TeNoneZeroesThreeBytes : Memory.wf State.reset.rb = true := by decide

theorem witness_TeContStoresThreeBytes : Memory.wf busy.rb = true := by decide

theorem witness_TeSectStoresThreeBytes : Memory.wf busy.rb = true := by decide

theorem witness_TeExtStoresItsBytes : Memory.wf busy.rb = true := by decide

theorem witness_TeCalStoresOneByte : Memory.wf busy.rb = true := by decide

theorem witness_TriggersAreIndependent :
    ∃ u, triggerOf (.teCal .first) = some .first ∧ exec (.teCal .first) State.reset = .next u :=
  ⟨_, rfl, exec_after _ _⟩

theorem witness_TriggersAreIndependent_outside :
    (21 < teBase State.reset .second ∨ teBase State.reset .second + State.reset.cfg.teLen ≤ 21)
      ∧ teBase State.reset (otherTrigger .second) ≤ 21
      ∧ 21 < teBase State.reset (otherTrigger .second) + State.reset.cfg.teLen := by decide

theorem witness_TriggerEncodingIsDeterministic :
    ∃ u u', Memory.wf wireless.rb = true ∧ Memory.wf busy.rb = true ∧ triggerOf (.teNone .second) = some .second
      ∧ busy.cfg = wireless.cfg ∧ busy.modeT = wireless.modeT ∧ exec (.teNone .second) wireless = .next u
      ∧ exec (.teNone .second) busy = .next u' :=
  ⟨_, _, by decide, by decide, rfl, by decide, by decide, exec_after _ _, exec_after _ _⟩

theorem witness_FaultsArePrecise :
    ∃ t, (presented 0#64).inputs = .command 0#64 :: [] ∧ step (presented 0#64) = .next t
      ∧ t.resp = some (.fault .illegalCommand) := ⟨afterStep (presented 0#64), rfl, rfl, by decide⟩

theorem witness_WhichCommandRaisesWhich :
    ∃ t, (presented 0x0400000000003000#64).inputs = .command 0x0400000000003000#64 :: []
      ∧ step (presented 0x0400000000003000#64) = .next t ∧ t.resp = some (.fault .addressFault) :=
  ⟨afterStep (presented 0x0400000000003000#64), rfl, rfl, by decide⟩

theorem witness_WhichCommandRaisesWhich_length :
    ∃ t, step (presented 0x1300000000003100#64) = .next t ∧ t.resp = some (.fault .lengthFault) :=
  ⟨afterStep (presented 0x1300000000003100#64), rfl, by decide⟩

theorem witness_WhichCommandRaisesWhich_sequence :
    ∃ t, step (presented 0x1200000000000000#64) = .next t ∧ t.resp = some (.fault .sequenceFault) :=
  ⟨afterStep (presented 0x1200000000000000#64), rfl, by decide⟩

theorem witness_DefinedCasesDoNotFault :
    8 ≤ (0x08#8).toNat % 16 ∧ State.reset.modeT = .wired ∧ triggerOf (.teCont .first 255#8 0#8) = some .first := by decide

theorem witness_SuccessfulRunNeverFaulted : successfulRun Config.ref ([.crcInit] ++ [.crcFin]) :=
  ⟨after .crcFin (after .crcInit State.reset), rfl, rfl⟩

theorem witness_EveryStepKeepsTheInvariant :
    ∃ t, (presentWord busy 0x0300000000000000#64).Inv ∧ step (presentWord busy 0x0300000000000000#64) = .next t :=
  ⟨afterStep (presentWord busy 0x0300000000000000#64), by decide, rfl⟩

theorem witness_WiredReportEndsAtFortyEight :
    Reachable Config.ref State.reset ∧ State.reset.modeT = .wired ∧ 48 ≤ 546 ∧ 546 ≤ 546 :=
  ⟨.reset, rfl, by decide, by decide⟩

/-- Two states that differ in `ACC` alone, with `ACCV = 0`. -/
theorem witness_ObservationalEqualityIsKept :
    ∃ t t', State.ObsEq (presented 0x1200000000000000#64) ((presented 0x1200000000000000#64).withAcc 1#32)
      ∧ step (presented 0x1200000000000000#64) = .next t
      ∧ step ((presented 0x1200000000000000#64).withAcc 1#32) = .next t' :=
  ⟨afterStep (presented 0x1200000000000000#64), afterStep ((presented 0x1200000000000000#64).withAcc 1#32),
    ⟨rfl, rfl, rfl, rfl, rfl, by decide, rfl, rfl⟩, rfl, rfl⟩

end Witnesses
end Sys2Proof.Tests
end

section
/-! PROOFS. Well-formedness of a configuration record: what each check of R7 accepts, and the check as a whole (O58). -/
namespace Sys2Proof

theorem Transport.forall_iff {p : Transport → Prop} : (∀ t, p t) ↔ p .wired ∧ p .wirelessRadio :=
  ⟨fun h => ⟨h _, h _⟩, fun ⟨hw, hr⟩ t => match t with | .wired => hw | .wirelessRadio => hr⟩

theorem Trigger.forall_iff {p : Trigger → Prop} : (∀ g, p g) ↔ p .first ∧ p .second :=
  ⟨fun h => ⟨h _, h _⟩, fun ⟨hf, hs⟩ g => match g with | .first => hf | .second => hs⟩

/-- Two ranges of one non-zero length share no number exactly when one ends before the other begins: the greater of the two
bases is the first number they could share. -/
theorem range_le_or_le_iff_forall_not_mem {a b n : Nat} (hn : 0 < n) :
    a + n ≤ b ∨ b + n ≤ a ↔ ∀ x, ¬ (a ≤ x ∧ x < a + n ∧ b ≤ x ∧ x < b + n) := by
  constructor
  · intro _ x
    omega
  · intro h
    have hmax := h (max a b)
    omega

namespace CfgRecord

variable {c : CfgRecord}

theorem polyOdd_iff : c.polyOdd = true ↔ c.crcPoly.getLsbD 0 = true := Iff.rfl

theorem lenFits_iff : c.lenFits = true ↔ 7 ≤ c.teLen := decide_eq_true_iff

theorem offsetsInField_iff : c.offsetsInField = true ↔ ∀ o ∈ c.teXOffsets, 1 ≤ o ∧ o ≤ c.teLen - 1 := by
  simp only [offsetsInField, List.all_eq_true, Bool.and_eq_true, decide_eq_true_eq]
  have hbound : ∀ o, 1 ≤ o ∧ o < c.teLen ↔ 1 ≤ o ∧ o ≤ c.teLen - 1 := fun o => by omega
  simp only [hbound]

theorem offsetsDistinct_iff : c.offsetsDistinct = true ↔ c.teXOffsets.Pairwise (fun o o' => o ≠ o') :=
  decide_eq_true_iff

theorem fieldsInside_iff {t : Transport} :
    c.fieldsInside t = true ↔ ∀ g, c.teBase t g + c.teLen ≤ Config.outLen t := by
  simp only [fieldsInside, Bool.and_eq_true, decide_eq_true_eq, Trigger.forall_iff]

/-- The check compares the ends of the fields; R7 item 5 speaks of the bytes in them. -/
theorem fieldsDisjoint_iff (hlen : 0 < c.teLen) {t : Transport} :
    c.fieldsDisjoint t = true ↔ ∀ x, ¬ (c.teBase t .first ≤ x ∧ x < c.teBase t .first + c.teLen
      ∧ c.teBase t .second ≤ x ∧ x < c.teBase t .second + c.teLen) := by
  rw [← range_le_or_le_iff_forall_not_mem hlen]
  simp only [fieldsDisjoint, Bool.or_eq_true, decide_eq_true_eq]

/-- The check as its parts, those of a transport taken together over both transports. -/
theorem wellFormed_iff :
    c.wellFormed = true ↔ c.polyOdd = true ∧ c.lenFits = true ∧ c.offsetsInField = true ∧ c.offsetsDistinct = true
      ∧ (∀ t, c.fieldsInside t = true) ∧ ∀ t, c.fieldsDisjoint t = true := by
  simp only [wellFormed, Bool.and_eq_true, Transport.forall_iff, and_assoc]

end CfgRecord

/-- Settles O58: the check is the conjunction of the items of R7, part by part. Item 5 needs item 3: a field of no bytes
would share none with any other, wherever its ends lie. -/
theorem configurationWellFormed : Obligations.ConfigurationWellFormed := by
  refine ⟨fun c => ?_, fun c => c.wf⟩
  rw [CfgRecord.wellFormed_iff, CfgRecord.polyOdd_iff, CfgRecord.lenFits_iff, CfgRecord.offsetsInField_iff,
    CfgRecord.offsetsDistinct_iff]
  simp only [CfgRecord.fieldsInside_iff]
  refine and_congr_right fun _ => and_congr_right fun hlen => ?_
  have hpos : 0 < c.teLen := by omega
  simp only [CfgRecord.fieldsDisjoint_iff hpos]

end Sys2Proof
end

section
/-! PROOFS. The rows of R55 are told apart by their `OP`, so the word of a command decodes to that command. -/
namespace Sys2Proof

theorem fieldOp_and (x y : CommandWord) : fieldOp (x &&& y) = fieldOp x &&& fieldOp y := BitVec.extractLsb'_and

/-- Every mask of R55 keeps the whole `OP`. -/
theorem fieldOp_mask : ∀ r ∈ decodeRows, fieldOp r.mask = 0xFF#8 := by decide

/-- No two rows of R55 have one `OP`. -/
theorem fieldOp_pattern_nodup : (decodeRows.map fun r => fieldOp r.pattern).Nodup := by decide

theorem DecodeRow.fieldOp_of_matchesWord {r : DecodeRow} {cw : CommandWord} (hr : r ∈ decodeRows)
    (h : r.matchesWord cw = true) : fieldOp r.pattern = fieldOp cw := by
  have hand : cw &&& r.mask = r.pattern := beq_iff_eq.mp h
  rw [← hand, fieldOp_and, fieldOp_mask r hr]
  exact BitVec.and_allOnes

theorem DecodeRow.eq_of_matchesWord {r r' : DecodeRow} {cw : CommandWord} (hr : r ∈ decodeRows) (hr' : r' ∈ decodeRows)
    (h : r.matchesWord cw = true) (h' : r'.matchesWord cw = true) : r = r' :=
  List.inj_on_of_nodup_map fieldOp_pattern_nodup hr hr'
    ((fieldOp_of_matchesWord hr h).trans (fieldOp_of_matchesWord hr' h').symm)

/-- The decoder's answer is that of whichever row matches: the order of the rows does not count. -/
theorem decode_of_matchesWord {r : DecodeRow} {cw : CommandWord} (hr : r ∈ decodeRows) (h : r.matchesWord cw = true) :
    decode cw = .ok (r.build cw) := by
  cases hfind : decodeRows.find? (fun r => r.matchesWord cw) with
  | none => exact absurd h (List.find?_eq_none.mp hfind r hr)
  | some r' =>
    have hmatch : r'.matchesWord cw = true := List.find?_some (p := fun r : DecodeRow => r.matchesWord cw) hfind
    have hrr' : r' = r := DecodeRow.eq_of_matchesWord (List.mem_of_find?_eq_some hfind) hr hmatch h
    simp only [decode, hfind, hrr']

theorem Laws.EncodedRow.statement (i : Instr) : Statement i :=
  match i with
  | .modeSet t => modeSet t
  | .rbClr => rbClr
  | .rbWr a d => rbWr a d
  | .rbRd a => rbRd a
  | .crcInit => crcInit
  | .crcByte d => crcByte d
  | .crcFin => crcFin
  | .cksum n => cksum n
  | .sealReport => sealReport
  | .dpadDec b => dpadDec b
  | .teNone g => teNone g
  | .teCont g start force => teCont g start force
  | .teSect g start force => teSect g start force
  | .teExt g start keep b m e q => teExt g start keep b m e q
  | .teCal g => teCal g

theorem decode_encode (i : Instr) : decode (encode i) = .ok i := by
  obtain ⟨r, hr, hmatch, hbuild⟩ := Laws.EncodedRow.statement i
  rw [decode_of_matchesWord hr hmatch, hbuild]

end Sys2Proof
end

section
/-! PROOFS. What a command can read of a state, and the one form that the effect of every command has: a fault, or a response with
the transport, the report and perhaps the accumulator replaced. The effect is the same in every state with the same view. -/
namespace Sys2Proof.Machine

theorem State.withInputs_eq_self {s : State} {ms : List HostMove} (h : s.inputs = ms) : s.withInputs ms = s := by
  subst h
  rfl

theorem State.withAcc_eq_withNewAcc {s : State} (h : s.accv = true) (a : Word) : s.withAcc a = s.withNewAcc a := by
  simp only [State.withAcc, State.withNewAcc, h]

/-- The states agree on all that a command can read: `ERR`, the host's side, and an `ACC` that is not valid stay unread (R16,
R21, R24). -/
structure State.SameView (s s' : State) : Prop where
  cfg : s.cfg = s'.cfg
  modeT : s.modeT = s'.modeT
  rb : s.rb = s'.rb
  accv : s.accv = s'.accv
  acc : s.accv = true → s.acc = s'.acc

namespace State.SameView

variable {s s' : State}

theorem refl (s : State) : SameView s s := ⟨rfl, rfl, rfl, rfl, fun _ => rfl⟩

theorem withErr (s : State) (e : BitVec 3) : SameView s (s.withErr e) := ⟨rfl, rfl, rfl, rfl, fun _ => rfl⟩

theorem withInputs (s : State) (ms : List HostMove) : SameView s (s.withInputs ms) := ⟨rfl, rfl, rfl, rfl, fun _ => rfl⟩

theorem logicalLen (h : SameView s s') : s.logicalLen = s'.logicalLen := congrArg Config.outLen h.modeT

theorem byteAt (h : SameView s s') (a : Nat) : s.byteAt a = s'.byteAt a := congrArg (Memory.read · a) h.rb

theorem fold (h : SameView s s') (n : Nat) : s.fold n = s'.fold n := State.fold_congr h.cfg fun a _ => h.byteAt a

theorem checksum (h : SameView s s') (n : Nat) : s.checksum n = s'.checksum n :=
  State.checksum_congr h.cfg fun a _ => h.byteAt a

theorem teBase (h : SameView s s') (g : Trigger) : Machine.teBase s g = Machine.teBase s' g := by
  simp only [Machine.teBase, h.cfg, h.modeT]

end State.SameView

theorem State.ObsEq.sameView {s s' : State} (h : State.ObsEq s s') : State.SameView s s' :=
  ⟨h.cfg, h.modeT, h.rb, h.accv, h.acc⟩

/-- What a command does to a state: it raises a fault, or it responds with the transport, the report and, where one is given,
the accumulator replaced. -/
inductive Effect where
  | fault (c : Cause)
  | update (r : Response) (t : Transport) (m : Memory) (acc : Option Word)

namespace Effect

/-- The state after the effect (R53, R133). -/
def result : Effect → State → State
  | .fault c, s => (s.withErr (errAfter s.err c)).withResp (.fault c)
  | .update r t m acc, s =>
    { s with modeT := t, rb := m, acc := acc.getD s.acc, accv := acc.isSome || s.accv, resp := some r }

/-- An update responds no fault, and leaves a report in canonical form and inside its length where there was one (R13, R124). -/
def Legal (s : State) : Effect → Prop
  | .fault _ => True
  | .update r t m _ => (∀ c, r ≠ .fault c) ∧ (Memory.wf s.rb = true → Memory.wf m = true)
      ∧ (Memory.below s.logicalLen s.rb = true → Memory.below (Config.outLen t) m = true)

/-- The effect `e` is what `i` does in `s`, and in every state that looks like it. -/
structure Describes (e : Effect) (i : Instr) (s : State) : Prop where
  legal : e.Legal s
  modeSet : (e.result s).modeT ≠ s.modeT → i = .modeSet (e.result s).modeT
  exec_eq : ∀ {s'}, State.SameView s s' → exec i s' = .next (e.result s')

variable {s : State} {i : Instr} {e : Effect}

@[simp] theorem result_cfg : (e.result s).cfg = s.cfg := by cases e <;> rfl

theorem result_withInputs (ms : List HostMove) : e.result (s.withInputs ms) = (e.result s).withInputs ms := by
  cases e <;> rfl

theorem result_err_of_ne_zero (h : s.err ≠ 0#3) : (e.result s).err = s.err := by
  cases e with
  | fault c => exact errAfter_of_ne h c
  | update r t m acc => rfl

theorem result_accv_of_accv (h : s.accv = true) : (e.result s).accv = true := by
  cases e with
  | fault c => exact h
  | update r t m acc => exact (congrArg (acc.isSome || ·) h).trans (Bool.or_true _)

/-- Replacing `ERR` beforehand changes nothing afterwards but `ERR`. -/
theorem result_withErr (err : BitVec 3) : ∃ err', e.result (s.withErr err) = (e.result s).withErr err' := by
  cases e with
  | fault c => exact ⟨errAfter err c, rfl⟩
  | update r t m acc => exact ⟨err, rfl⟩

theorem result_obsEq {s' : State} (h : State.ObsEq s s') : State.ObsEq (e.result s) (e.result s') := by
  cases e with
  | fault c => exact ⟨h.cfg, h.modeT, h.rb, h.accv, congrArg (errAfter · c) h.err, h.acc, h.inputs, rfl⟩
  | update r t m acc =>
    cases acc with
    | none => exact ⟨h.cfg, rfl, rfl, h.accv, h.err, h.acc, h.inputs, rfl⟩
    | some a => exact ⟨h.cfg, rfl, rfl, rfl, h.err, fun _ => rfl, h.inputs, rfl⟩

theorem result_inv (he : e.Legal s) (hs : s.Inv) : (e.result s).Inv := by
  obtain ⟨hwf, hbelow, herr, -⟩ := hs
  cases e with
  | fault c => exact ⟨hwf, hbelow, errAfter_le_four herr c, decide_eq_true (errAfter_ne_zero s.err c)⟩
  | update r t m acc =>
    obtain ⟨hr, hm, hmb⟩ := he
    refine ⟨hm hwf, hmb hbelow, herr, ?_⟩
    cases r with
    | fault c => exact absurd rfl (hr c)
    | _ => rfl

theorem describes_fault {c : Cause} (h : ∀ {s'}, State.SameView s s' → exec i s' = raise c s') :
    (Effect.fault c).Describes i s where
  legal := trivial
  modeSet hne := absurd rfl hne
  exec_eq hv := h hv

/-- A command that replaces the report and leaves the transport. -/
theorem describes_report {r : Response} {m : Memory} {acc : Option Word} (hr : ∀ c, r ≠ .fault c)
    (hwf : Memory.wf s.rb = true → Memory.wf m = true)
    (hbelow : Memory.below s.logicalLen s.rb = true → Memory.below s.logicalLen m = true)
    (h : ∀ {s'}, State.SameView s s' → exec i s' = .next ((Effect.update r s.modeT m acc).result s')) :
    (Effect.update r s.modeT m acc).Describes i s where
  legal := ⟨hr, hwf, hbelow⟩
  modeSet hne := absurd rfl hne
  exec_eq hv := h hv

/-- A command that leaves the transport and the report. -/
theorem describes_keep {r : Response} {acc : Option Word} (hr : ∀ c, r ≠ .fault c)
    (h : ∀ {s'}, State.SameView s s' → exec i s' = .next ((Effect.update r s.modeT s.rb acc).result s')) :
    (Effect.update r s.modeT s.rb acc).Describes i s :=
  describes_report hr id id h

theorem describes_encodeTrigger (g : Trigger) (te : TriggerEffect) (h : ∀ s, exec i s = encodeTrigger g te s) :
    (Effect.update .ok s.modeT (Memory.writeList s.rb (teBase s g) (te.bytes s.cfg)) none).Describes i s :=
  describes_report (by simp) (fun hm => Memory.wf_writeList hm _ _)
    (fun hm => Memory.below_writeList hm _ _ (teBase_add_lt s g te)) fun {s'} hv => by
      rw [h, encodeTrigger_eq, hv.teBase, hv.modeT, hv.rb, hv.cfg]
      rfl

end Effect

/-- The checksum field, offsets 74 to 77, lies inside the wireless report (R32). -/
theorem cksOff_add_lt_of_mem_littleEndian (w : Word) :
    ∀ x ∈ littleEndian w, Config.cksOff + x.1 < Config.outLen .wirelessRadio := by
  simp [littleEndian, Config.cksOff, Config.outLen]

section
variable (s : State)

theorem exists_effect_rbWr (a : Offset) (d : Byte) : ∃ e : Effect, e.Describes (.rbWr a d) s := by
  rcases Nat.lt_or_ge a.toNat s.logicalLen with hlt | hge
  · refine ⟨_, Effect.describes_report (r := .ok) (m := Memory.write s.rb a.toNat d) (acc := none) (by simp)
      (fun hm => Memory.wf_write hm _ _) (fun hm => Memory.below_write _ hm hlt) fun {s'} hv => ?_⟩
    rw [exec_rbWr d (hv.logicalLen ▸ hlt), hv.modeT, hv.rb]
    rfl
  · exact ⟨_, Effect.describes_fault fun hv => exec_rbWr_fault d (hv.logicalLen ▸ hge)⟩

theorem exists_effect_rbRd (a : Offset) : ∃ e : Effect, e.Describes (.rbRd a) s := by
  rcases Nat.lt_or_ge a.toNat s.logicalLen with hlt | hge
  · refine ⟨_, Effect.describes_keep (r := .byte (s.byteAt a.toNat)) (acc := none) (by simp) fun {s'} hv => ?_⟩
    rw [exec_rbRd (hv.logicalLen ▸ hlt), hv.byteAt, hv.modeT, hv.rb]
    rfl
  · exact ⟨_, Effect.describes_fault fun hv => exec_rbRd_fault (hv.logicalLen ▸ hge)⟩

theorem exists_effect_crcByte (d : Byte) : ∃ e : Effect, e.Describes (.crcByte d) s := by
  cases hs : s.accv with
  | true =>
    refine ⟨_, Effect.describes_keep (r := .ok) (acc := some (crcStep s.cfg s.acc d)) (by simp) fun {s'} hv => ?_⟩
    have hs' : s'.accv = true := hv.accv ▸ hs
    rw [exec_crcByte d hs', State.withAcc_eq_withNewAcc hs', hv.acc hs, hv.cfg, hv.modeT, hv.rb]
    rfl
  | false => exact ⟨_, Effect.describes_fault fun hv => exec_crcByte_fault d (hv.accv ▸ hs)⟩

theorem exists_effect_crcFin : ∃ e : Effect, e.Describes .crcFin s := by
  cases hs : s.accv with
  | true =>
    refine ⟨_, Effect.describes_keep (r := .word (crcFinal s.cfg s.acc)) (acc := none) (by simp) fun {s'} hv => ?_⟩
    rw [exec_crcFin (hv.accv ▸ hs), hv.acc hs, hv.cfg, hv.modeT, hv.rb]
    rfl
  | false => exact ⟨_, Effect.describes_fault fun hv => exec_crcFin_fault (hv.accv ▸ hs)⟩

theorem exists_effect_cksum (n : Offset) : ∃ e : Effect, e.Describes (.cksum n) s := by
  rcases Nat.lt_or_ge s.logicalLen n.toNat with hgt | hle
  · exact ⟨_, Effect.describes_fault fun hv => exec_cksum_fault (hv.logicalLen ▸ hgt)⟩
  · refine ⟨_, Effect.describes_keep (r := .word (s.checksum n.toNat)) (acc := some (s.fold n.toNat)) (by simp)
      fun {s'} hv => ?_⟩
    rw [exec_cksum (hv.logicalLen ▸ hle), hv.checksum, hv.fold, hv.modeT, hv.rb]
    rfl

theorem exists_effect_sealReport : ∃ e : Effect, e.Describes .sealReport s := by
  cases hs : s.modeT with
  | wired =>
    refine ⟨_, Effect.describes_keep (r := .ok) (acc := none) (by simp) fun {s'} hv => ?_⟩
    rw [exec_sealReport_wired (hv.modeT ▸ hs), hv.modeT, hv.rb]
    rfl
  | wirelessRadio =>
    have hlen : s.logicalLen = Config.outLen .wirelessRadio := congrArg Config.outLen hs
    refine ⟨_, Effect.describes_report (r := .word (s.checksum Config.cksLen)) (acc := some (s.fold Config.cksLen))
      (m := Memory.writeList s.rb Config.cksOff (littleEndian (s.checksum Config.cksLen))) (by simp)
      (fun hm => Memory.wf_writeList hm _ _)
      (fun hm => Memory.below_writeList hm _ _ (hlen ▸ cksOff_add_lt_of_mem_littleEndian _)) fun {s'} hv => ?_⟩
    rw [exec_sealReport_wireless (hv.modeT ▸ hs), hv.checksum, hv.fold, hv.modeT, hv.rb]
    rfl

/-- Every command has an effect of that form. -/
theorem exists_effect (i : Instr) : ∃ e : Effect, e.Describes i s := by
  cases i with
  | modeSet t =>
    exact ⟨.update .ok t Memory.cleared none, ⟨by simp, fun _ => rfl, fun _ => rfl⟩, fun _ => rfl, fun _ => rfl⟩
  | rbClr =>
    refine ⟨_, Effect.describes_report (r := .ok) (m := Memory.cleared) (acc := none) (by simp) (fun _ => rfl)
      (fun _ => rfl) fun {s'} hv => ?_⟩
    rw [exec_rbClr, hv.modeT]
    rfl
  | rbWr a d => exact exists_effect_rbWr s a d
  | rbRd a => exact exists_effect_rbRd s a
  | crcInit =>
    refine ⟨_, Effect.describes_keep (r := .ok) (acc := some (crcStart s.cfg)) (by simp) fun {s'} hv => ?_⟩
    rw [exec_crcInit, hv.cfg, hv.modeT, hv.rb]
    rfl
  | crcByte d => exact exists_effect_crcByte s d
  | crcFin => exact exists_effect_crcFin s
  | cksum n => exact exists_effect_cksum s n
  | sealReport => exact exists_effect_sealReport s
  | dpadDec b =>
    refine ⟨_, Effect.describes_keep (r := .dpad (dpadRom s.cfg (lowNibble b))) (acc := none) (by simp) fun {s'} hv => ?_⟩
    rw [exec_dpadDec, hv.cfg, hv.modeT, hv.rb]
    rfl
  | teNone g => exact ⟨_, Effect.describes_encodeTrigger g _ fun _ => rfl⟩
  | teCont g start force => exact ⟨_, Effect.describes_encodeTrigger g _ fun _ => rfl⟩
  | teSect g start force => exact ⟨_, Effect.describes_encodeTrigger g _ fun _ => rfl⟩
  | teExt g start keep b m e q => exact ⟨_, Effect.describes_encodeTrigger g _ fun _ => rfl⟩
  | teCal g => exact ⟨_, Effect.describes_encodeTrigger g _ fun _ => rfl⟩

end

/-- A command neither reads nor takes the host's moves that wait behind it (R38, R39). -/
theorem exec_withInputs {i : Instr} {s t : State} (h : exec i s = .next t) (ms : List HostMove) :
    exec i (s.withInputs ms) = .next (t.withInputs ms) := by
  obtain ⟨e, he⟩ := exists_effect s i
  obtain rfl : e.result s = t := Host.Outcome.next.inj ((he.exec_eq (.refl s)).symm.trans h)
  rw [he.exec_eq (.withInputs s ms), Effect.result_withInputs]

/-- Everything running a word can be, in the one form: the effect of the command it encodes, or `IllegalCommand` (R57). -/
theorem exists_effect_runWord (cw : CommandWord) (s : State) :
    ∃ e : Effect, e.Legal s ∧ ((e.result s).modeT ≠ s.modeT → decode cw = .ok (.modeSet (e.result s).modeT))
      ∧ ∀ {s'}, State.SameView s s' → runWord cw s' = .next (e.result s') := by
  cases hd : decode cw with
  | ok i =>
    obtain ⟨e, he⟩ := exists_effect s i
    exact ⟨e, he.legal, fun hne => congrArg Except.ok (he.modeSet hne), fun hv => by
      simpa only [runWord, hd] using he.exec_eq hv⟩
  | error r => exact ⟨.fault .illegalCommand, trivial, fun hne => absurd rfl hne, fun _ => by simp only [runWord, hd]; rfl⟩

end Sys2Proof.Machine
end

section
/-! PROOFS. One step: its three cases as equations, what the next state is in each, and the statements about every step
(O10, O13 to O18, O52, O54, O55, O57). -/
namespace Sys2Proof
namespace Machine

theorem runWord_of_decode_ok {cw : CommandWord} {i : Instr} (h : decode cw = .ok i) (s : State) :
    runWord cw s = exec i s := by simp only [runWord, h]

theorem step_of_inputs_nil {s : State} (h : s.inputs = []) : step s = .next s := by
  simp only [step, takeMove_eq_none h]

theorem step_of_inputs_reset {s : State} {rest : List HostMove} (h : s.inputs = .reset :: rest) :
    step s = .next (hostReset (s.withInputs rest)) := by
  simp only [step, takeMove_eq_some h, performMove]

theorem step_of_inputs_command {s : State} {cw : CommandWord} {rest : List HostMove} (h : s.inputs = .command cw :: rest) :
    step s = runWord cw (s.withInputs rest) := by
  simp only [step, takeMove_eq_some h, performMove]

theorem step_of_decode_ok {s : State} {cw : CommandWord} {rest : List HostMove} {i : Instr}
    (h : s.inputs = .command cw :: rest) (hd : decode cw = .ok i) : step s = exec i (s.withInputs rest) :=
  (step_of_inputs_command h).trans (runWord_of_decode_ok hd _)

/-- Everything the state after a step can be: the same, the reset one, or the effect of a command word. -/
theorem step_next_cases {s t : State} (h : step s = .next t) :
    t = s
      ∨ (∃ rest, s.inputs = .reset :: rest ∧ t = hostReset (s.withInputs rest))
      ∨ ∃ (cw : CommandWord) (rest : List HostMove) (e : Effect), s.inputs = .command cw :: rest
        ∧ t = e.result (s.withInputs rest) ∧ e.Legal (s.withInputs rest)
        ∧ (t.modeT ≠ s.modeT → decode cw = .ok (.modeSet t.modeT)) := by
  rcases step_cases s with ⟨-, hstep⟩ | ⟨rest, hin, hstep⟩ | ⟨cw, rest, hin, hstep⟩
  · exact .inl (Host.Outcome.next.inj (h.symm.trans hstep))
  · exact .inr (.inl ⟨rest, hin, Host.Outcome.next.inj (h.symm.trans hstep)⟩)
  · obtain ⟨e, hlegal, hmode, hrun⟩ := exists_effect_runWord cw (s.withInputs rest)
    obtain rfl : t = e.result (s.withInputs rest) := Host.Outcome.next.inj (h.symm.trans (hstep.trans (hrun (.refl _))))
    exact .inr (.inr ⟨cw, rest, e, hin, rfl, hlegal, hmode⟩)

theorem State.resetFor_inv (cfg : Cfg) : (State.resetFor cfg).Inv := ⟨rfl, rfl, Nat.zero_le _, rfl⟩

theorem hostReset_inv (s : State) : (hostReset s).Inv := ⟨rfl, rfl, Nat.zero_le _, rfl⟩

/-- The two draws for `ACC` may differ, and `ACCV = 0` (R150). -/
theorem hostReset_obsEq {s s' : State} (h : State.ObsEq s s') : State.ObsEq (hostReset s) (hostReset s') where
  cfg := h.cfg
  modeT := rfl
  rb := rfl
  accv := rfl
  err := rfl
  acc hv := Bool.noConfusion hv
  inputs := h.inputs
  resp := rfl

theorem State.ObsEq.withInputs {s s' : State} (h : State.ObsEq s s') (ms : List HostMove) :
    State.ObsEq (s.withInputs ms) (s'.withInputs ms) :=
  ⟨h.cfg, h.modeT, h.rb, h.accv, h.err, h.acc, rfl, h.resp⟩

/-- Observationally equal states step to observationally equal states. -/
theorem exists_step_obsEq {s s' : State} (h : State.ObsEq s s') :
    ∃ t t', step s = .next t ∧ step s' = .next t' ∧ State.ObsEq t t' := by
  match hin : s.inputs with
  | [] => exact ⟨s, s', step_of_inputs_nil hin, step_of_inputs_nil (h.inputs ▸ hin), h⟩
  | .reset :: rest =>
    exact ⟨_, _, step_of_inputs_reset hin, step_of_inputs_reset (h.inputs ▸ hin), hostReset_obsEq (h.withInputs rest)⟩
  | .command cw :: rest =>
    have hrest := h.withInputs rest
    obtain ⟨e, -, -, hrun⟩ := exists_effect_runWord cw (s.withInputs rest)
    exact ⟨_, _, (step_of_inputs_command hin).trans (hrun (.refl _)),
      (step_of_inputs_command (h.inputs ▸ hin)).trans (hrun hrest.sameView), Effect.result_obsEq hrest⟩

theorem core_run_succ {s t : State} (h : step s = .next t) (k : Nat) : Sys2Proof.core.run (k + 1) s = Sys2Proof.core.run k t := by
  have hstep : Sys2Proof.core.step s = .next t := h
  simp only [Host.Core.run, hstep]

theorem execAll_cons_of_next {i : Instr} {s t : State} (h : exec i s = .next t) (cmds : List Instr) :
    execAll (i :: cmds) s = execAll cmds t := by simp only [execAll, h]

end Machine

open Machine

/-- Settles O55: each of the three kinds of step keeps the invariant. -/
theorem everyStepKeepsTheInvariant : Obligations.EveryStepKeepsTheInvariant := by
  intro s t hs hstep
  rcases step_next_cases hstep with rfl | ⟨rest, -, rfl⟩ | ⟨cw, rest, e, -, rfl, hlegal, -⟩
  · exact hs
  · exact hostReset_inv _
  · exact Effect.result_inv hlegal hs

/-- Settles O57: a step of the one state is a step of the other with the same effect. -/
theorem observationalEqualityIsKept : Obligations.ObservationalEqualityIsKept := by
  intro s s' t t' h hstep hstep'
  obtain ⟨u, u', hu, hu', hobs⟩ := exists_step_obsEq h
  obtain rfl : u = t := Host.Outcome.next.inj (hu.symm.trans hstep)
  obtain rfl : u' = t' := Host.Outcome.next.inj (hu'.symm.trans hstep')
  exact hobs

/-- Settles O14: no effect of a command word changes a recorded cause or clears `ACCV`. -/
theorem onlyResetClears : Obligations.OnlyResetClears := by
  intro s t hstep
  rcases step_next_cases hstep with rfl | ⟨rest, hin, -⟩ | ⟨cw, rest, e, -, rfl, -, -⟩
  · exact ⟨fun _ hne => absurd rfl hne, fun hv hv' => absurd (hv.symm.trans hv') (by decide)⟩
  · exact ⟨fun _ _ => ⟨rest, hin⟩, fun _ _ => ⟨rest, hin⟩⟩
  · have herr := Effect.result_err_of_ne_zero (e := e) (s := s.withInputs rest)
    have haccv := Effect.result_accv_of_accv (e := e) (s := s.withInputs rest)
    exact ⟨fun h hne => absurd (herr h) hne, fun h h' => absurd ((haccv h).symm.trans h') (by decide)⟩

/-- Settles O16: neither reset nor an effect has a configuration to write. -/
theorem configurationIsConstant : Obligations.ConfigurationIsConstant := by
  intro s t hstep
  rcases step_next_cases hstep with rfl | ⟨rest, -, rfl⟩ | ⟨cw, rest, e, -, rfl, -, -⟩
  · rfl
  · rfl
  · exact Effect.result_cfg

/-- Settles O17: of the effects, only that of `MODE.SET` has another transport. -/
theorem modeChangesByModeSetOnly : Obligations.ModeChangesByModeSetOnly := by
  intro s t hstep hne
  rcases step_next_cases hstep with rfl | ⟨rest, hin, -⟩ | ⟨cw, rest, e, hin, -, -, hmode⟩
  · exact absurd rfl hne
  · exact .inl ⟨rest, hin⟩
  · exact .inr ⟨cw, rest, hin, hmode hne⟩

/-- Settles O18, by induction on the commands: the first step runs the first command, which leaves the others waiting. -/
theorem portRunsCommandsInOrder : Obligations.PortRunsCommandsInOrder := by
  intro s cmds
  induction cmds generalizing s with
  | nil =>
    intro hin
    exact congrArg Host.Outcome.next (State.withInputs_eq_self hin).symm
  | cons i cmds ih =>
    intro hin
    obtain ⟨e, he⟩ := exists_effect s i
    have hexec : exec i s = .next (e.result s) := he.exec_eq (.refl s)
    have hstep := (step_of_decode_ok hin (decode_encode i)).trans (exec_withInputs hexec _)
    have hfirst := exec_withInputs hexec []
    have hrest := ih ((e.result s).withInputs _) rfl
    exact (core_run_succ hstep _).trans (hrest.trans (execAll_cons_of_next hfirst cmds).symm)

/-- Settles O52: `ERR` is outside a command's view. -/
theorem errIsReadByNoCommand : Obligations.ErrIsReadByNoCommand := by
  intro s i err
  obtain ⟨e, he⟩ := exists_effect s i
  obtain ⟨err', herr'⟩ := Effect.result_withErr (e := e) (s := s) err
  refine ⟨e.result s, (e.result s).withErr err', he.exec_eq (.refl s), ?_, rfl, rfl, rfl, rfl, rfl⟩
  rw [he.exec_eq (.withErr s err), herr']

/-- Settles O10: a step takes the word, and running a word that decodes is executing what it decodes to. -/
theorem stepRunsDecoded : Obligations.StepRunsDecoded := fun _ _ _ _ hin hd => step_of_decode_ok hin hd

/-- Settles O13: each field as the reset state is written; an empty buffer reads 0x00 everywhere. -/
theorem stateAfterReset : Obligations.StateAfterReset :=
  ⟨fun _ => ⟨rfl, fun _ => rfl, rfl, rfl, rfl, rfl, rfl⟩, rfl⟩

/-- Settles O15: an illegal word too has an effect, the fault it raises. -/
theorem everyStepGoesOn : Obligations.EveryStepGoesOn := by
  intro s
  rcases step_cases s with ⟨-, hstep⟩ | ⟨rest, -, hstep⟩ | ⟨cw, rest, -, hstep⟩
  · exact ⟨_, hstep⟩
  · exact ⟨_, hstep⟩
  · obtain ⟨e, -, -, hrun⟩ := exists_effect_runWord cw (s.withInputs rest)
    exact ⟨_, hstep.trans (hrun (.refl _))⟩

/-- Settles O54: an empty buffer is canonical in any bound, and there is no response. -/
theorem resetMeetsTheInvariant : Obligations.ResetMeetsTheInvariant :=
  ⟨State.resetFor_inv, State.resetFor_inv Config.ref⟩

end Sys2Proof
end

section
/-! PROOFS. Reads of the report after a store of one byte and after the sealing of the checksum (O23, O29). -/
namespace Sys2Proof
namespace Machine

/-- The byte of a word that weighs `256 ^ k`. -/
theorem extractLsb'_eq_ofNat_div (w : Word) (k : Nat) :
    w.extractLsb' (8 * k) 8 = BitVec.ofNat 8 (w.toNat / 256 ^ k) := by
  have hpow : 2 ^ (8 * k) = 256 ^ k := Nat.pow_mul 2 8 k
  rw [BitVec.extractLsb', Nat.shiftRight_eq_div_pow, hpow]

/-- The bytes of a stored word rise from the least significant with the address (R35). -/
theorem State.byteAt_writeWord_add {s : State} (h : Memory.wf s.rb = true) (a : Nat) (w : Word) {k : Nat} (hk : k < 4) :
    (s.writeWord a w).byteAt (a + k) = w.extractLsb' (8 * k) 8 := by
  rw [State.byteAt_writeWord h]
  match k, hk with
  | 0, _ | 1, _ | 2, _ | 3, _ => simp

/-- Every command but `MODE.SET` keeps the transport (R15). -/
theorem modeT_of_exec {i : Instr} {s u : State} (h : exec i s = .next u) (hi : ∀ t, i ≠ .modeSet t) : u.modeT = s.modeT := by
  obtain ⟨e, he⟩ := exists_effect s i
  obtain rfl : e.result s = u := Host.Outcome.next.inj ((he.exec_eq (.refl s)).symm.trans h)
  exact by_contra fun hne => hi _ (he.modeSet hne)

/-- The checksum field after wireless `SEAL` (R35, R109). -/
theorem byteAt_of_exec_sealReport {s u : State} (hwf : Memory.wf s.rb = true) (hmode : s.modeT = .wirelessRadio)
    (h : exec .sealReport s = .next u) {k : Nat} (hk : k < 4) :
    u.byteAt (Config.cksOff + k) = BitVec.ofNat 8 ((s.checksum Config.cksLen).toNat / 256 ^ k) := by
  obtain rfl := Host.Outcome.next.inj ((exec_sealReport_wireless hmode).symm.trans h)
  have hwf' : Memory.wf (s.withNewAcc (s.fold Config.cksLen)).rb = true := hwf
  rw [State.byteAt_withResp, State.byteAt_writeWord_add hwf' _ _ hk, extractLsb'_eq_ofNat_div]

end Machine

open Machine

/-- Settles O23: the store keeps the transport, so the second address stays valid, and the read sees the stored report. -/
theorem readAfterWrite : Obligations.ReadAfterWrite := by
  intro s t a x d hwf ha hx hwr
  obtain rfl : (s.writeByte a.toNat d).withResp .ok = t := Host.Outcome.next.inj ((exec_rbWr d ha).symm.trans hwr)
  refine ⟨_, exec_rbRd hx, ?_⟩
  simp only [State.withResp_resp, State.byteAt_withResp, State.byteAt_writeByte hwf, BitVec.toNat_inj]

/-- Settles O29: the four offsets fit the address operand and lie in the wireless report, where they read the sealed bytes. -/
theorem sealedFieldIsLittleEndian : Obligations.SealedFieldIsLittleEndian := by
  intro s u k hwf hmode hseal hk
  have haddr : (BitVec.ofNat 10 (74 + k)).toNat = 74 + k := Nat.mod_eq_of_lt (by omega)
  have hlen : u.logicalLen = 547 := congrArg Config.outLen ((modeT_of_exec hseal (by simp)).trans hmode)
  refine ⟨_, exec_rbRd (by omega), ?_⟩
  rw [State.withResp_resp, haddr]
  exact congrArg (some <| Response.byte ·) (byteAt_of_exec_sealReport hwf hmode hseal hk)

end Sys2Proof
end

section
/-! PROOFS. The formats of R50 as the or of the shifted operands, which is how R56 assembles a word (O4). -/
namespace Sys2Proof

section
variable (op : Byte)

theorem formatZ_eq_or : formatZ op = op.setWidth 64 <<< 56 := by
  rw [← BitVec.setWidth_eq (formatZ op)]
  simp only [formatZ, BitVec.setWidth_cast, BitVec.setWidth_append_eq_shiftLeft_setWidth_or, BitVec.setWidth_zero,
    BitVec.or_zero]

theorem formatM_eq_or (t : BitVec 1) : formatM op t = op.setWidth 64 <<< 56 ||| t.setWidth 64 := by
  rw [← BitVec.setWidth_eq (formatM op t)]
  simp only [formatM, BitVec.setWidth_cast, BitVec.setWidth_append_eq_shiftLeft_setWidth_or, BitVec.setWidth_zero,
    BitVec.or_zero, ← BitVec.shiftLeft_add]

theorem formatB_eq_or (imm : Byte) : formatB op imm = op.setWidth 64 <<< 56 ||| imm.setWidth 64 := by
  rw [← BitVec.setWidth_eq (formatB op imm)]
  simp only [formatB, BitVec.setWidth_cast, BitVec.setWidth_append_eq_shiftLeft_setWidth_or, BitVec.setWidth_zero,
    BitVec.or_zero, ← BitVec.shiftLeft_add]

theorem formatW_eq_or (a : Offset) (imm : Byte) :
    formatW op a imm = op.setWidth 64 <<< 56 ||| a.setWidth 64 <<< 8 ||| imm.setWidth 64 := by
  rw [← BitVec.setWidth_eq (formatW op a imm)]
  simp only [formatW, BitVec.setWidth_cast, BitVec.setWidth_append_eq_shiftLeft_setWidth_or, BitVec.setWidth_zero,
    BitVec.or_zero, BitVec.shiftLeft_or_distrib, ← BitVec.shiftLeft_add]

theorem formatA_eq_or (a : Offset) : formatA op a = op.setWidth 64 <<< 56 ||| a.setWidth 64 <<< 8 :=
  (formatW_eq_or op a 0#8).trans BitVec.or_zero

theorem formatT_eq_or (g : BitVec 1) (start p2 mid endB freq : Byte) (keep : BitVec 1) :
    formatT op g start p2 mid endB freq keep
      = op.setWidth 64 <<< 56 ||| g.setWidth 64 <<< 55 ||| start.setWidth 64 <<< 40 ||| p2.setWidth 64 <<< 32
        ||| mid.setWidth 64 <<< 24 ||| endB.setWidth 64 <<< 16 ||| freq.setWidth 64 <<< 8 ||| keep.setWidth 64 := by
  rw [← BitVec.setWidth_eq (formatT op g start p2 mid endB freq keep)]
  simp only [formatT, BitVec.setWidth_cast, BitVec.setWidth_append_eq_shiftLeft_setWidth_or, BitVec.setWidth_zero,
    BitVec.or_zero, BitVec.shiftLeft_or_distrib, ← BitVec.shiftLeft_add]

theorem formatT_two_eq_or (g : BitVec 1) (start p2 : Byte) :
    formatT op g start p2 0#8 0#8 0#8 0#1
      = op.setWidth 64 <<< 56 ||| g.setWidth 64 <<< 55 ||| start.setWidth 64 <<< 40 ||| p2.setWidth 64 <<< 32 := by
  simp only [formatT_eq_or, BitVec.setWidth_zero, BitVec.zero_shiftLeft, BitVec.or_zero]

theorem formatT_none_eq_or (g : BitVec 1) :
    formatT op g 0#8 0#8 0#8 0#8 0#8 0#1 = op.setWidth 64 <<< 56 ||| g.setWidth 64 <<< 55 := by
  simp only [formatT_eq_or, BitVec.setWidth_zero, BitVec.zero_shiftLeft, BitVec.or_zero]

end

/-- Settles O4: each command's word is of one of the formats. -/
theorem operandAssembly : Obligations.OperandAssembly :=
  ⟨fun _ => formatM_eq_or _ _, formatZ_eq_or _, fun _ _ => formatW_eq_or _ _ _, fun _ => formatA_eq_or _ _,
    formatZ_eq_or _, fun _ => formatB_eq_or _ _, formatZ_eq_or _, fun _ => formatA_eq_or _ _, formatZ_eq_or _,
    fun _ => formatB_eq_or _ _, fun _ => formatT_none_eq_or _ _, fun _ _ _ => formatT_two_eq_or _ _ _ _,
    fun _ _ _ => formatT_two_eq_or _ _ _ _, fun _ _ _ _ _ _ _ => formatT_eq_or _ _ _ _ _ _ _ _,
    fun _ => formatT_none_eq_or _ _, by decide, by decide, by decide⟩

end Sys2Proof
end

section
/-! PROOFS. A word put together again from the fields that a row of R55 reads: what the row's match fixes, and the bits of the
word outside the row's mask. So a word that decodes is the word of its command, and decodes by its row alone (O1, O2, O3, O6). -/
namespace Sys2Proof

section
variable (cw : CommandWord)

/-- A field put back at its place is the word's bits there. -/
theorem setWidth_extractLsb'_shiftLeft (lo len : Nat) :
    (cw.extractLsb' lo len).setWidth 64 <<< lo = cw &&& (BitVec.allOnes len).setWidth 64 <<< lo := by
  apply BitVec.eq_of_getLsbD_eq
  intro k hk
  rcases Nat.lt_or_ge k lo with hlo | hlo
  · simp [hlo]
  · have hadd : lo + (k - lo) = k := by omega
    simp [hk, hadd, Nat.not_lt.mpr hlo, Bool.and_comm]

theorem setWidth_extractLsb'_zero (len : Nat) :
    (cw.extractLsb' 0 len).setWidth 64 = cw &&& (BitVec.allOnes len).setWidth 64 := by
  simpa only [BitVec.shiftLeft_zero] using setWidth_extractLsb'_shiftLeft cw 0 len

theorem ofBool_getLsbD (k : Nat) : BitVec.ofBool (cw.getLsbD k) = cw.extractLsb' k 1 := by
  apply BitVec.eq_of_getLsbD_eq
  simp

theorem bit_fieldT : (fieldT cw).bit = cw.extractLsb' 0 1 := by
  rw [← ofBool_getLsbD, fieldT]
  cases cw.getLsbD 0 <;> rfl

theorem bit_fieldG : (fieldG cw).bit = cw.extractLsb' 55 1 := by
  rw [← ofBool_getLsbD, fieldG]
  cases cw.getLsbD 55 <;> rfl

theorem formatZ_fields (op : Byte) : formatZ op = formatZ op ||| (cw &&& 0x0#64) := by
  rw [BitVec.and_zero, BitVec.or_zero]

theorem formatM_fields (op : Byte) : formatM op (fieldT cw).bit = formatZ op ||| (cw &&& 0x1#64) := by
  rw [formatM_eq_or, formatZ_eq_or, bit_fieldT, setWidth_extractLsb'_zero]
  rfl

theorem formatB_fields (op : Byte) : formatB op (fieldImm8 cw) = formatZ op ||| (cw &&& 0xFF#64) := by
  rw [formatB_eq_or, formatZ_eq_or, fieldImm8, setWidth_extractLsb'_zero]
  rfl

theorem formatA_fields (op : Byte) : formatA op (fieldAddr cw) = formatZ op ||| (cw &&& 0x3FF00#64) := by
  rw [formatA_eq_or, formatZ_eq_or, fieldAddr, setWidth_extractLsb'_shiftLeft]
  rfl

theorem formatW_fields (op : Byte) :
    formatW op (fieldAddr cw) (fieldImm8 cw) = formatZ op ||| (cw &&& 0x3FFFF#64) := by
  simp only [formatW_eq_or, formatZ_eq_or, fieldAddr, fieldImm8, setWidth_extractLsb'_shiftLeft, setWidth_extractLsb'_zero,
    BitVec.or_assoc, ← BitVec.and_or_distrib_left]
  rfl

theorem formatT_none_fields (op : Byte) :
    formatT op (fieldG cw).bit 0#8 0#8 0#8 0#8 0#8 0#1 = formatZ op ||| (cw &&& 0x0080000000000000#64) := by
  rw [formatT_none_eq_or, formatZ_eq_or, bit_fieldG, setWidth_extractLsb'_shiftLeft]
  rfl

theorem formatT_two_fields (op : Byte) :
    formatT op (fieldG cw).bit (fieldStart cw) (fieldP2 cw) 0#8 0#8 0#8 0#1
      = formatZ op ||| (cw &&& 0x0080FFFF00000000#64) := by
  simp only [formatT_two_eq_or, formatZ_eq_or, bit_fieldG, fieldStart, fieldP2, setWidth_extractLsb'_shiftLeft,
    BitVec.or_assoc, ← BitVec.and_or_distrib_left]
  rfl

theorem formatT_fields (op : Byte) :
    formatT op (fieldG cw).bit (fieldStart cw) (fieldP2 cw) (fieldMid cw) (fieldEnd cw) (fieldFreq cw)
      (BitVec.ofBool (fieldKeep cw)) = formatZ op ||| (cw &&& 0x0080FFFFFFFFFF01#64) := by
  simp only [formatT_eq_or, formatZ_eq_or, bit_fieldG, fieldStart, fieldP2, fieldMid, fieldEnd, fieldFreq, fieldKeep,
    ofBool_getLsbD, setWidth_extractLsb'_shiftLeft, setWidth_extractLsb'_zero, BitVec.or_assoc,
    ← BitVec.and_or_distrib_left]
  rfl

/-- The operands of a row are all that its mask leaves out. -/
theorem encode_build : ∀ r ∈ decodeRows, encode (r.build cw) = r.pattern ||| (cw &&& ~~~r.mask) := by
  simp only [decodeRows, List.forall_mem_cons]
  exact ⟨formatM_fields cw 0x01#8, formatZ_fields cw 0x02#8, formatW_fields cw 0x03#8, formatA_fields cw 0x04#8,
    formatZ_fields cw 0x10#8, formatB_fields cw 0x11#8, formatZ_fields cw 0x12#8, formatA_fields cw 0x13#8,
    formatZ_fields cw 0x14#8, formatB_fields cw 0x20#8, formatT_none_fields cw 0x30#8, formatT_two_fields cw 0x31#8,
    formatT_two_fields cw 0x32#8, formatT_fields cw 0x33#8, formatT_none_fields cw 0x34#8, fun _ h => nomatch h⟩

theorem op_build : ∀ r ∈ decodeRows, (r.build cw).op = fieldOp r.pattern := by
  simp only [decodeRows, List.forall_mem_cons]
  exact ⟨rfl, rfl, rfl, rfl, rfl, rfl, rfl, rfl, rfl, rfl, rfl, rfl, rfl, rfl, rfl, fun _ h => nomatch h⟩

end

theorem DecodeRow.encode_build_of_matchesWord {r : DecodeRow} {cw : CommandWord} (hr : r ∈ decodeRows)
    (h : r.matchesWord cw = true) : encode (r.build cw) = cw := by
  have hand : cw &&& r.mask = r.pattern := beq_iff_eq.mp h
  rw [encode_build cw r hr, ← hand, ← BitVec.and_or_distrib_left, BitVec.or_not_self, BitVec.and_allOnes]

theorem exists_row_of_decode {cw : CommandWord} {i : Instr} (h : decode cw = .ok i) :
    ∃ r ∈ decodeRows, r.matchesWord cw = true ∧ r.build cw = i := by
  unfold decode at h
  split at h
  case h_1 r hfind =>
    exact ⟨r, List.mem_of_find?_eq_some hfind, List.find?_some (p := fun r : DecodeRow => r.matchesWord cw) hfind,
      Except.ok.inj h⟩
  case h_2 => cases h

/-- The row of R55 at a place of the table. -/
def decodeRowAt (n : Fin 15) : DecodeRow := decodeRows.get n

theorem decodeRowAt_mem (n : Fin 15) : decodeRowAt n ∈ decodeRows := List.get_mem decodeRows n

theorem decode_of_and_eq {cw : CommandWord} (n : Fin 15) (h : cw &&& (decodeRowAt n).mask = (decodeRowAt n).pattern) :
    decode cw = .ok ((decodeRowAt n).build cw) := decode_of_matchesWord (decodeRowAt_mem n) (beq_iff_eq.mpr h)

/-- The `OP` of the command tells the row that the word has matched. -/
theorem and_eq_of_decode {cw : CommandWord} {i : Instr} (n : Fin 15) (hop : i.op = fieldOp (decodeRowAt n).pattern)
    (h : decode cw = .ok i) : cw &&& (decodeRowAt n).mask = (decodeRowAt n).pattern := by
  obtain ⟨r, hr, hmatch, rfl⟩ := exists_row_of_decode h
  obtain rfl : r = decodeRowAt n :=
    List.inj_on_of_nodup_map fieldOp_pattern_nodup hr (decodeRowAt_mem n) ((op_build cw r hr).symm.trans hop)
  exact beq_iff_eq.mp hmatch

/-- Settles O1: the word of a command matches the command's row and no other. -/
theorem decodeOfEncode : Obligations.DecodeOfEncode := decode_encode

/-- Settles O2: the row that the word matches reads every bit that its mask leaves out. -/
theorem encodeOfDecode : Obligations.EncodeOfDecode := by
  intro cw i h
  obtain ⟨r, hr, hmatch, rfl⟩ := exists_row_of_decode h
  exact DecodeRow.encode_build_of_matchesWord hr hmatch

/-- Settles O3, row by row: from the command's `OP` to the row, and from the row to what it reads. -/
theorem decodeIsMatchAndMask : Obligations.DecodeIsMatchAndMask := fun _ =>
  ⟨⟨fun ⟨_, h⟩ => and_eq_of_decode 0 rfl h, fun h => ⟨_, decode_of_and_eq 0 h⟩⟩,
    ⟨and_eq_of_decode 1 rfl, decode_of_and_eq 1⟩,
    ⟨fun ⟨_, _, h⟩ => and_eq_of_decode 2 rfl h, fun h => ⟨_, _, decode_of_and_eq 2 h⟩⟩,
    ⟨fun ⟨_, h⟩ => and_eq_of_decode 3 rfl h, fun h => ⟨_, decode_of_and_eq 3 h⟩⟩,
    ⟨and_eq_of_decode 4 rfl, decode_of_and_eq 4⟩,
    ⟨fun ⟨_, h⟩ => and_eq_of_decode 5 rfl h, fun h => ⟨_, decode_of_and_eq 5 h⟩⟩,
    ⟨and_eq_of_decode 6 rfl, decode_of_and_eq 6⟩,
    ⟨fun ⟨_, h⟩ => and_eq_of_decode 7 rfl h, fun h => ⟨_, decode_of_and_eq 7 h⟩⟩,
    ⟨and_eq_of_decode 8 rfl, decode_of_and_eq 8⟩,
    ⟨fun ⟨_, h⟩ => and_eq_of_decode 9 rfl h, fun h => ⟨_, decode_of_and_eq 9 h⟩⟩,
    ⟨fun ⟨_, h⟩ => and_eq_of_decode 10 rfl h, fun h => ⟨_, decode_of_and_eq 10 h⟩⟩,
    ⟨fun ⟨_, _, _, h⟩ => and_eq_of_decode 11 rfl h, fun h => ⟨_, _, _, decode_of_and_eq 11 h⟩⟩,
    ⟨fun ⟨_, _, _, h⟩ => and_eq_of_decode 12 rfl h, fun h => ⟨_, _, _, decode_of_and_eq 12 h⟩⟩,
    ⟨fun ⟨_, _, _, _, _, _, _, h⟩ => and_eq_of_decode 13 rfl h, fun h => ⟨_, _, _, _, _, _, _, decode_of_and_eq 13 h⟩⟩,
    ⟨fun ⟨_, h⟩ => and_eq_of_decode 14 rfl h, fun h => ⟨_, decode_of_and_eq 14 h⟩⟩⟩

/-- Settles O6: eight fixed words. -/
theorem specWordsDecode : Obligations.SpecWordsDecode := by
  unfold Obligations.SpecWordsDecode
  decide

end Sys2Proof
end

section
/-! PROOFS. The two ways in which a word is illegal: no row has its `OP`, or a reserved bit of the row that has it is 1 (O5). -/
namespace Sys2Proof
open Machine

theorem formatZ_fieldOp (cw : CommandWord) : formatZ (fieldOp cw) = cw &&& 0xFF00000000000000#64 := by
  rw [formatZ_eq_or, fieldOp, setWidth_extractLsb'_shiftLeft]
  rfl

/-- The match of a row of R55 is its `OP`, every other bit 0. -/
theorem pattern_eq_formatZ : ∀ r ∈ decodeRows, r.pattern = formatZ (fieldOp r.pattern) := by decide

/-- The mask of a row of R55 is the `OP` and the reserved bits of its format (R50, R57). -/
theorem reservedBitsOf_fieldOp_pattern :
    ∀ r ∈ decodeRows, reservedBitsOf (fieldOp r.pattern) = some (0xFF00000000000000#64 ^^^ r.mask) := by decide

/-- Reserved bits are given for the listed `OP`s and for no other (R54). -/
theorem isSome_reservedBitsOf :
    ∀ op : Byte, (reservedBitsOf op).isSome = decodeRows.any fun r => fieldOp r.pattern == op := by decide

theorem and_eq_and_iff_and_xor_eq_zero {x a b : CommandWord} : x &&& a = x &&& b ↔ x &&& (b ^^^ a) = 0#64 := by
  have hdistrib : x &&& (b ^^^ a) = (x &&& b) ^^^ (x &&& a) :=
    BitVec.eq_of_getElem_eq (by simp [Bool.and_xor_distrib_left])
  rw [hdistrib, BitVec.xor_eq_zero_iff, eq_comm]

/-- A word with the `OP` of a row matches the row exactly when its reserved bits are 0. -/
theorem DecodeRow.matchesWord_iff {r : DecodeRow} {cw : CommandWord} (hr : r ∈ decodeRows)
    (hop : fieldOp r.pattern = fieldOp cw) :
    r.matchesWord cw = true ↔ cw &&& (0xFF00000000000000#64 ^^^ r.mask) = 0#64 := by
  rw [DecodeRow.matchesWord, beq_iff_eq, pattern_eq_formatZ r hr, hop, formatZ_fieldOp, and_eq_and_iff_and_xor_eq_zero]

theorem exists_row_of_reservedBitsOf {op : Byte} {m : CommandWord} (h : reservedBitsOf op = some m) :
    ∃ r ∈ decodeRows, fieldOp r.pattern = op ∧ 0xFF00000000000000#64 ^^^ r.mask = m := by
  have hany : (decodeRows.any fun r => fieldOp r.pattern == op) = true := by
    rw [← isSome_reservedBitsOf, h, Option.isSome_some]
  obtain ⟨r, hr, hop⟩ := List.any_eq_true.mp hany
  obtain rfl : fieldOp r.pattern = op := beq_iff_eq.mp hop
  exact ⟨r, hr, rfl, Option.some.inj ((reservedBitsOf_fieldOp_pattern r hr).symm.trans h)⟩

theorem exists_matchesWord_iff {cw : CommandWord} :
    (∃ r ∈ decodeRows, r.matchesWord cw = true) ↔ ∃ m, reservedBitsOf (fieldOp cw) = some m ∧ cw &&& m = 0#64 := by
  constructor
  · rintro ⟨r, hr, hmatch⟩
    have hop := DecodeRow.fieldOp_of_matchesWord hr hmatch
    exact ⟨_, hop ▸ reservedBitsOf_fieldOp_pattern r hr, (DecodeRow.matchesWord_iff hr hop).mp hmatch⟩
  · rintro ⟨m, hm, hzero⟩
    obtain ⟨r, hr, hop, rfl⟩ := exists_row_of_reservedBitsOf hm
    exact ⟨r, hr, (DecodeRow.matchesWord_iff hr hop).mpr hzero⟩

theorem decode_eq_error_iff {cw : CommandWord} {e : DecodeReject} :
    decode cw = .error e ↔ (¬ ∃ r ∈ decodeRows, r.matchesWord cw = true) ∧ e = rejectReason cw := by
  rw [← List.find?_isSome]
  unfold decode
  cases decodeRows.find? (fun r => r.matchesWord cw) <;> simp [eq_comm]

theorem rejectReason_eq (cw : CommandWord) :
    rejectReason cw
      = if (reservedBitsOf (fieldOp cw)).isSome then .reservedBits (fieldOp cw) else .unknownOp (fieldOp cw) := by
  rw [rejectReason, isSome_reservedBitsOf]

namespace Machine

theorem runWord_of_decode_error {cw : CommandWord} {e : DecodeReject} (h : decode cw = .error e) (s : State) :
    runWord cw s = raise .illegalCommand s := by simp only [runWord, h]

theorem exists_raise_faultTaken (c : Cause) (s : State) : ∃ t, raise c s = .next t ∧ State.FaultTaken s t c :=
  ⟨_, raise_eq c s, ⟨rfl, rfl, ⟨rfl, fun _ => rfl⟩, ⟨rfl, rfl⟩, ⟨rfl, rfl, rfl⟩⟩⟩

end Machine

/-- Settles O5: a word is rejected exactly when no row matches it, and the `OP` says which of the two ways it is. -/
theorem illegalWords : Obligations.IllegalWords := by
  refine ⟨fun cw e => ?_, fun cw e s h => ?_⟩
  · rw [decode_eq_error_iff, exists_matchesWord_iff, rejectReason_eq]
    cases reservedBitsOf (fieldOp cw) <;> simp
  · rw [runWord_of_decode_error h]
    exact exists_raise_faultTaken _ s

end Sys2Proof
end

section
/-! PROOFS. Every waiting word is responded to, and a response can be read back from its 35 bits (O7). -/
namespace Sys2Proof
namespace Machine

theorem Effect.exists_result_resp (e : Effect) (s : State) : ∃ r, (e.result s).resp = some r := by
  cases e with
  | fault c => exact ⟨_, rfl⟩
  | update r t m acc => exact ⟨_, rfl⟩

theorem Effect.result_inputs (e : Effect) (s : State) : (e.result s).inputs = s.inputs := by cases e <;> rfl

theorem exists_response_of_inputs_command {s : State} {cw : CommandWord} {rest : List HostMove}
    (h : s.inputs = .command cw :: rest) : ∃ t r, step s = .next t ∧ t.resp = some r ∧ t.inputs = rest := by
  obtain ⟨e, -, -, hrun⟩ := exists_effect_runWord cw (s.withInputs rest)
  obtain ⟨r, hr⟩ := e.exists_result_resp (s.withInputs rest)
  exact ⟨_, r, (step_of_inputs_command h).trans (hrun (.refl _)), hr, e.result_inputs _⟩

theorem Cause.one_le_code (c : Cause) : 1 ≤ c.code.toNat := by cases c <;> decide

theorem EdgeFlags.toNat_payload (f : EdgeFlags) :
    f.payload.toNat = f.up.toNat + 2 * f.down.toNat + 4 * f.left.toNat + 8 * f.right.toNat := by
  obtain ⟨u, d, l, r⟩ := f
  revert u d l r
  decide

namespace Response

theorem toNat_payload_byte (v : Byte) : (byte v).payload.toNat = v.toNat := BitVec.toNat_setWidth_of_le (by decide)

theorem toNat_payload_dpad (f : EdgeFlags) : (dpad f).payload.toNat = f.payload.toNat :=
  BitVec.toNat_setWidth_of_le (by decide)

theorem toNat_payload_fault (c : Cause) : (fault c).payload.toNat = c.code.toNat :=
  BitVec.toNat_setWidth_of_le (by decide)

end Response

/-- The cause with a code of R130; a number that is no code reads as the last cause. -/
def Cause.ofCode : Nat → Cause
  | 1 => .illegalCommand
  | 2 => .addressFault
  | 3 => .lengthFault
  | _ => .sequenceFault

theorem Cause.ofCode_code (c : Cause) : Cause.ofCode c.code.toNat = c := by cases c <;> rfl

/-- The flags of which a word is the payload `{r, l, d, u}` (R53). -/
def EdgeFlags.ofPayload (w : Word) : EdgeFlags := ⟨w.getLsbD 0, w.getLsbD 1, w.getLsbD 2, w.getLsbD 3⟩

theorem EdgeFlags.ofPayload_payload (f : EdgeFlags) : EdgeFlags.ofPayload (f.payload.setWidth 32) = f := by
  obtain ⟨u, d, l, r⟩ := f
  revert u d l r
  decide

namespace Response

/-- The response that a kind and a payload stand for, the inverse of R53's binary form (`ofParts_kind_payload`). -/
def ofParts (kind : BitVec 3) (payload : Word) : Response :=
  match kind.toNat with
  | 0 => .ok
  | 1 => .byte (payload.setWidth 8)
  | 2 => .word payload
  | 3 => .dpad (EdgeFlags.ofPayload payload)
  | _ => .fault (Cause.ofCode payload.toNat)

theorem ofParts_kind_payload (r : Response) : ofParts r.kind r.payload = r := by
  cases r with
  | ok => rfl
  | byte v => exact congrArg byte ((BitVec.setWidth_setWidth_of_le v (by decide)).trans (BitVec.setWidth_eq v))
  | word v => rfl
  | dpad f => exact congrArg dpad f.ofPayload_payload
  | fault c => exact congrArg fault ((congrArg Cause.ofCode (toNat_payload_fault c)).trans c.ofCode_code)

variable (r : Response)

theorem extractLsb'_bits_kind : r.bits.extractLsb' 32 3 = r.kind := BitVec.extractLsb'_append_eq_left

theorem extractLsb'_bits_payload : r.bits.extractLsb' 0 32 = r.payload := BitVec.extractLsb'_append_eq_right

theorem ofParts_bits : ofParts (r.bits.extractLsb' 32 3) (r.bits.extractLsb' 0 32) = r := by
  rw [r.extractLsb'_bits_kind, r.extractLsb'_bits_payload, r.ofParts_kind_payload]

theorem kind_ne_unused : r.kind ≠ 4#3 ∧ r.kind ≠ 5#3 ∧ r.kind ≠ 6#3 := by
  cases r <;> simp [kind]

theorem bits_injective : Function.Injective bits := by
  intro r r' h
  rw [← r.ofParts_bits, ← r'.ofParts_bits, h]

end Response
end Machine

open Machine

/-- Settles O7: a response is read back from its bits, so the bits tell responses apart. -/
theorem responseBinaryForm : Obligations.ResponseBinaryForm :=
  ⟨fun _ _ _ => exists_response_of_inputs_command,
    fun r => ⟨r.extractLsb'_bits_kind, r.extractLsb'_bits_payload, r.kind_ne_unused⟩,
    fun _ _ h => Response.bits_injective h, rfl,
    fun v => ⟨rfl, Response.toNat_payload_byte v⟩,
    fun _ => ⟨rfl, rfl⟩,
    fun f => ⟨rfl, (Response.toNat_payload_dpad f).trans f.toNat_payload⟩,
    fun c => ⟨rfl, Response.toNat_payload_fault c, c.one_le_code, c.code_le_four⟩⟩

end Sys2Proof
end

section
/-! PROOFS. An assembled program: at most one command a line, each the word of a command (O8, O9). -/
namespace Sys2Proof
open Machine

theorem Machine.length_le_of_asmProgram {lines : List (List Char)} {is : List Instr} (h : asmProgram lines = some is) :
    is.length ≤ lines.length := by
  induction lines generalizing is with
  | nil =>
    cases h
    exact Nat.le_refl 0
  | cons l rest ih =>
    simp only [asmProgram, Option.bind_eq_some_iff, Option.map_eq_some_iff] at h
    obtain ⟨i, -, is', hrest, rfl⟩ := h
    have htail : is'.length ≤ rest.length := ih hrest
    have hhead : i.toList.length ≤ 1 := by cases i <;> simp
    simp only [List.length_append, List.length_cons]
    omega

/-- Settles O9: the words are those of the program's commands, so decoding gives the commands back. -/
theorem assembledWordsAreLegal : Obligations.AssembledWordsAreLegal := by
  intro lines ws h
  obtain ⟨is, hprog, rfl⟩ := Option.map_eq_some_iff.mp h
  refine ⟨?_, fun w hw => ?_⟩
  · rw [List.length_map]
    exact length_le_of_asmProgram hprog
  · obtain ⟨i, -, rfl⟩ := List.mem_map.mp hw
    exact ⟨i, decode_encode i⟩

/-- Settles O8: three fixed texts. -/
theorem assemblerText : Obligations.AssemblerText := by
  unfold Obligations.AssemblerText
  decide

end Sys2Proof
end

section
/-! PROOFS. The directional-pad ROM: what its two halves hold, what the flags of an entry can be, and the table of the decided
`DPAD_MAP` (O38, O39, O40). -/
namespace Sys2Proof
namespace Machine

section
variable (s : State) (r : Response)

theorem State.sameReport_withResp : State.SameReport s (s.withResp r) := ⟨rfl, s.byteAt_withResp r⟩

theorem State.sameAcc_withResp : State.SameAcc s (s.withResp r) := ⟨rfl, rfl⟩

theorem State.sameHost_withResp : State.SameHost s (s.withResp r) := ⟨rfl, rfl, rfl⟩

end

theorem toNat_lowNibble (b : Byte) : (lowNibble b).toNat = b.toNat % 16 := BitVec.extractLsb'_toNat 0 4 b

section
variable {cfg : Cfg} {n : Nibble}

theorem dpadRom_of_lt (h : n.toNat < 8) : dpadRom cfg n = directionFlags (cfg.dpadMap[n.toNat]) := dif_pos h

theorem dpadRom_of_le (h : 8 ≤ n.toNat) : dpadRom cfg n = EdgeFlags.clear := dif_neg (Nat.not_lt.mpr h)

theorem directionFlags_ne_clear (d : Direction) : directionFlags d ≠ EdgeFlags.clear := by cases d <;> decide

/-- Every direction has a flag, so an entry without one is of the hard zeroes (R72). -/
theorem dpadRom_eq_clear_iff : dpadRom cfg n = EdgeFlags.clear ↔ 8 ≤ n.toNat := by
  refine ⟨fun hclear => Nat.not_lt.mp fun hlt => ?_, dpadRom_of_le⟩
  exact directionFlags_ne_clear _ ((dpadRom_of_lt hlt).symm.trans hclear)

/-- No two opposite edges, and so at most two edges: the shape of the eight directions and of `NONE` (R71). -/
structure EdgeFlags.Consistent (f : EdgeFlags) : Prop where
  upDown : (f.up && f.down) = false
  leftRight : (f.left && f.right) = false
  atMostTwo : f.up.toNat + f.down.toNat + f.left.toNat + f.right.toNat ≤ 2

theorem EdgeFlags.consistent_clear : EdgeFlags.clear.Consistent := ⟨rfl, rfl, by decide⟩

theorem consistent_directionFlags (d : Direction) : (directionFlags d).Consistent := by
  cases d <;> exact ⟨rfl, rfl, by decide⟩

theorem consistent_dpadRom : (dpadRom cfg n).Consistent := by
  obtain hlt | hle := Nat.lt_or_ge n.toNat 8
  · rw [dpadRom_of_lt hlt]
    exact consistent_directionFlags _
  · rw [dpadRom_of_le hle]
    exact EdgeFlags.consistent_clear

end

/-- Of a configuration the ROM holds `DPAD_MAP` alone (R72). -/
theorem dpadRomTable_congr {cfg cfg' : Cfg} (h : cfg.dpadMap = cfg'.dpadMap) : dpadRomTable cfg = dpadRomTable cfg' := by
  simp only [dpadRomTable, dpadRom, h]

/-- The command sees the low nibble of its operand only (R74). -/
theorem exec_dpadDec_congr {b b' : Byte} (h : b'.toNat % 16 = b.toNat % 16) (s : State) :
    exec (.dpadDec b') s = exec (.dpadDec b) s := by
  have hnibble : lowNibble b' = lowNibble b :=
    BitVec.eq_of_toNat_eq ((toNat_lowNibble b').trans (h.trans (toNat_lowNibble b).symm))
  rw [exec_dpadDec, exec_dpadDec, hnibble]

end Machine

open Machine

/-- Settles O39: the response is a ROM entry, and each entry is consistent, in either half of the ROM. -/
theorem dpadProperties : Obligations.DpadProperties := by
  intro s b
  obtain ⟨hupDown, hleftRight, hatMostTwo⟩ := consistent_dpadRom (cfg := s.cfg) (n := lowNibble b)
  have hclear : dpadRom s.cfg (lowNibble b) = EdgeFlags.clear ↔ 8 ≤ b.toNat % 16 :=
    toNat_lowNibble b ▸ dpadRom_eq_clear_iff
  exact ⟨_, exec_dpadDec b s, hupDown, hleftRight, hatMostTwo, hclear, fun _ h => exec_dpadDec_congr h s⟩

/-- Settles O38: the next state is the same state with the ROM's entry as its response. -/
theorem dpadDecReadsTheRom : Obligations.DpadDecReadsTheRom :=
  ⟨fun _ => rfl, fun s b => ⟨_, exec_dpadDec b s, rfl, s.sameReport_withResp _, s.sameAcc_withResp _, rfl,
    s.sameHost_withResp _⟩⟩

/-- Settles O40: the reference configuration has the decided map, and its sixteen entries are computed. -/
theorem dpadTableDecided : Obligations.DpadTableDecided := by
  intro cfg h
  have href : dpadRomTable cfg = dpadRomTable Config.ref := dpadRomTable_congr h
  rw [href]
  decide

end Sys2Proof
end

section
/-! PROOFS. A list of byte stores read back: at an offset that is stored once the byte stored there, elsewhere what was there
before. From it, what each trigger effect leaves in the report (O41 to O48). -/
namespace Sys2Proof
namespace Machine

namespace Memory

variable {m m' : Memory}

/-- From two reports the same stores leave at an address the same byte, or leave it alone in both. -/
theorem read_writeList_eq_or_untouched (hm : wf m = true) (hm' : wf m' = true) (base x : Nat) (ws : List (Nat × Byte)) :
    read (writeList m' base ws) x = read (writeList m base ws) x
      ∨ (read (writeList m base ws) x = read m x ∧ read (writeList m' base ws) x = read m' x) := by
  induction ws generalizing m m' with
  | nil => exact .inr ⟨rfl, rfl⟩
  | cons w ws ih =>
    simp only [read_writeList_cons]
    have hrest := ih (wf_write hm (base + w.1) w.2) (wf_write hm' (base + w.1) w.2)
    by_cases hx : x = base + w.1
    · rw [hx, read_write_self hm, read_write_self hm'] at hrest
      rcases hrest with heq | ⟨h, h'⟩
      · exact .inl (hx ▸ heq)
      · exact .inl (hx ▸ h'.trans h.symm)
    · rwa [read_write_other m _ hx, read_write_other m' _ hx] at hrest

theorem read_writeList_congr (hm : wf m = true) (hm' : wf m' = true) (base : Nat) (ws : List (Nat × Byte)) {x : Nat}
    (h : read m' x = read m x) : read (writeList m' base ws) x = read (writeList m base ws) x := by
  rcases read_writeList_eq_or_untouched hm hm' base x ws with heq | ⟨hkeep, hkeep'⟩
  · exact heq
  · exact hkeep'.trans (h.trans hkeep.symm)

end Memory

section
variable {s : State} {off : Nat} {ws : List (Nat × Byte)} (base x : Nat) (v : Byte)

theorem State.byteAt_writeBytes_nil : (s.writeBytes base []).byteAt x = s.byteAt x := rfl

theorem State.byteAt_writeBytes_of_notMem (hoff : off ∉ ws.map Prod.fst) (hx : x = base + off) :
    (s.writeBytes base ws).byteAt x = s.byteAt x :=
  Memory.read_writeList_other s.rb base x ws fun w hw heq =>
    hoff (List.mem_map.mpr ⟨w, hw, Nat.add_left_cancel (heq.symm.trans hx)⟩)

/-- A store at an offset that no later store has is what that address reads, and the others do not see it. -/
theorem State.byteAt_writeBytes_cons (hwf : Memory.wf s.rb = true) (hoff : off ∉ ws.map Prod.fst) :
    (s.writeBytes base ((off, v) :: ws)).byteAt x
      = if x = base + off then v else (s.writeBytes base ws).byteAt x := by
  have hcons : (s.writeBytes base ((off, v) :: ws)).byteAt x = ((s.writeByte (base + off) v).writeBytes base ws).byteAt x :=
    rfl
  split
  next hx => rw [hcons, byteAt_writeBytes_of_notMem base x hoff hx, byteAt_writeByte hwf, if_pos hx]
  next hx => exact Memory.read_writeList_congr hwf (Memory.wf_write hwf _ _) base ws (Memory.read_write_other s.rb v hx)

/-- A store that is made on a condition: without it the address keeps its byte. -/
theorem State.byteAt_writeBytes_ite_append (hwf : Memory.wf s.rb = true) (hoff : off ∉ ws.map Prod.fst) (c : Bool) :
    (s.writeBytes base ((if c then [(off, v)] else []) ++ ws)).byteAt x
      = if x = base + off then (if c then v else s.byteAt x) else (s.writeBytes base ws).byteAt x := by
  cases c with
  | true => exact byteAt_writeBytes_cons base x v hwf hoff
  | false =>
    by_cases hx : x = base + off
    · exact (byteAt_writeBytes_of_notMem base x hoff hx).trans (if_pos hx).symm
    · exact (if_neg hx).symm

/-- The three bytes of the effects with an opcode, a start and a force (R83 to R85). -/
theorem State.byteAt_writeBytes_three (hwf : Memory.wf s.rb = true) (b₀ b₁ b₂ : Byte) :
    (s.writeBytes base [(0, b₀), (1, b₁), (2, b₂)]).byteAt x
      = if x = base then b₀ else if x = base + 1 then b₁ else if x = base + 2 then b₂ else s.byteAt x := by
  rw [byteAt_writeBytes_cons _ _ _ hwf (by simp), byteAt_writeBytes_cons _ _ _ hwf (by simp),
    byteAt_writeBytes_cons _ _ _ hwf (by simp), byteAt_writeBytes_nil, Nat.add_zero]

end

section
variable (start freq : Byte)

/-- There is no borrow: `0xFF` has every bit set (R89). -/
theorem invertedStart_eq_not : invertedStart start = ~~~start := BitVec.allOnes_sub_eq_not start

theorem toNat_invertedStart : (invertedStart start).toNat = 255 - start.toNat := by
  rw [invertedStart_eq_not, BitVec.toNat_not]

theorem invertedStart_eq_ofNat : invertedStart start = BitVec.ofNat 8 (255 - start.toNat) := by
  rw [← toNat_invertedStart, BitVec.ofNat_toNat, BitVec.setWidth_eq]

theorem toNat_frequencyByte : (frequencyByte freq).toNat = max 1 (freq.toNat / 2) := by
  have hlt : max 1 (freq.toNat / 2) < 2 ^ 8 := by omega
  exact Nat.mod_eq_of_lt hlt

theorem frequencyByte_eq_ite : frequencyByte freq = if freq.toNat < 2 then 1#8 else freq >>> 1 := by
  apply BitVec.eq_of_toNat_eq
  rw [toNat_frequencyByte]
  split
  next hlt => exact Nat.max_eq_left (by omega)
  next hge =>
    rw [BitVec.toNat_ushiftRight, Nat.shiftRight_eq_div_pow]
    omega

theorem ushiftRight_one_eq_zero_iff : freq >>> 1 = 0#8 ↔ freq.toNat < 2 := by
  rw [← BitVec.toNat_inj, BitVec.toNat_ushiftRight, Nat.shiftRight_eq_div_pow]
  exact Nat.div_eq_zero_iff_lt (by decide)

end

/-- Offset 0, where the opcode is stored, is none of the six sub-offsets (R7 item 3). -/
theorem zero_cons_teXOffsets_nodup (cfg : Cfg) : (0 :: cfg.teXOffsets).Nodup := by
  obtain ⟨-, -, hfield, hnodup, -⟩ := cfg.facts
  exact List.nodup_cons.mpr ⟨fun h => absurd (hfield 0 h).1 (by decide), hnodup⟩

theorem TriggerEffect.bytes_extendedEffect (cfg : Cfg) (start : Byte) (keep : Bool) (b m e q : Byte) :
    (extendedEffect start keep b m e q).bytes cfg
      = (0, 0x26#8) :: (cfg.teXStartOff, invertedStart start)
        :: ((if keep then [(cfg.teXKeepOff, cfg.teXKeepVal)] else [])
          ++ [(cfg.teXBeginOff, b), (cfg.teXMidOff, m), (cfg.teXEndOff, e), (cfg.teXFreqOff, frequencyByte q)]) := rfl

/-- The offsets of a list of stores that begins with one made on a condition. -/
theorem map_fst_ite_append_subset (off : Nat) (v : Byte) (ws : List (Nat × Byte)) (c : Bool) :
    ((if c then [(off, v)] else []) ++ ws).map Prod.fst ⊆ off :: ws.map Prod.fst := by
  cases c with
  | true => exact List.Subset.refl _
  | false => exact List.subset_cons_self _ _

/-- The bytes of the extended effect, each read at its own offset (R86). -/
theorem byteAt_writeBytes_extendedEffect {s : State} (hwf : Memory.wf s.rb = true) (base x : Nat) (start : Byte) (keep : Bool)
    (b m e q : Byte) :
    (s.writeBytes base ((TriggerEffect.extendedEffect start keep b m e q).bytes s.cfg)).byteAt x
      = if x = base then 0x26#8
        else if x = base + s.cfg.teXStartOff then invertedStart start
        else if x = base + s.cfg.teXKeepOff then (if keep then s.cfg.teXKeepVal else s.byteAt x)
        else if x = base + s.cfg.teXBeginOff then b
        else if x = base + s.cfg.teXMidOff then m
        else if x = base + s.cfg.teXEndOff then e
        else if x = base + s.cfg.teXFreqOff then frequencyByte q
        else s.byteAt x := by
  have hnodup := zero_cons_teXOffsets_nodup s.cfg
  simp only [CfgRecord.teXOffsets, List.nodup_cons] at hnodup
  obtain ⟨hopcode, hstart, hkeep, hbegin, hmid, hend, hfreq, -⟩ := hnodup
  have hsub := map_fst_ite_append_subset s.cfg.teXKeepOff s.cfg.teXKeepVal
    [(s.cfg.teXBeginOff, b), (s.cfg.teXMidOff, m), (s.cfg.teXEndOff, e), (s.cfg.teXFreqOff, frequencyByte q)] keep
  rw [TriggerEffect.bytes_extendedEffect,
    State.byteAt_writeBytes_cons base x _ hwf fun h => hopcode (List.cons_subset_cons _ hsub h),
    State.byteAt_writeBytes_cons base x _ hwf fun h => hstart (hsub h),
    State.byteAt_writeBytes_ite_append base x _ hwf hkeep, State.byteAt_writeBytes_cons base x _ hwf hbegin,
    State.byteAt_writeBytes_cons base x _ hwf hmid, State.byteAt_writeBytes_cons base x _ hwf hend,
    State.byteAt_writeBytes_cons base x _ hwf hfreq, State.byteAt_writeBytes_nil, Nat.add_zero]

/-- Everything a trigger-effect command does, given the report it leaves: `Ok`, and all but the report as it was. -/
theorem exists_encodeTrigger_next {g : Trigger} {te : TriggerEffect} {s : State} {report : Nat → Byte}
    (h : ∀ x, (s.writeBytes (teBase s g) (te.bytes s.cfg)).byteAt x = report x) :
    ∃ u, encodeTrigger g te s = .next u ∧ (∀ x, u.byteAt x = report x) ∧ u.resp = some .ok ∧ u.modeT = s.modeT
      ∧ u.err = s.err ∧ State.SameAcc s u ∧ State.SameHost s u :=
  ⟨_, encodeTrigger_eq g te s, h, rfl, rfl, rfl, ⟨rfl, rfl⟩, ⟨rfl, rfl, rfl⟩⟩

/-- A trigger-effect command stores the bytes of one effect, the same in every state. -/
theorem exists_writeBytes_of_triggerOf {i : Instr} {g : Trigger} (h : triggerOf i = some g) :
    ∃ te : TriggerEffect, ∀ {s u}, exec i s = .next u → u = (s.writeBytes (teBase s g) (te.bytes s.cfg)).withResp .ok := by
  obtain ⟨te, hte⟩ := exec_of_triggerOf h
  exact ⟨te, fun {s u} hu => Host.Outcome.next.inj (hu.symm.trans ((hte s).trans (encodeTrigger_eq g te s)))⟩

/-- Outside its field a trigger-effect command changes no byte (R92). -/
theorem byteAt_of_triggerOf_of_outside {i : Instr} {g : Trigger} {s u : State} (hi : triggerOf i = some g)
    (hexec : exec i s = .next u) {x : Nat} (hx : x < teBase s g ∨ teBase s g + s.cfg.teLen ≤ x) :
    u.byteAt x = s.byteAt x := by
  obtain ⟨te, hte⟩ := exists_writeBytes_of_triggerOf hi
  obtain rfl := hte hexec
  refine Memory.read_writeList_other s.rb _ x _ fun w hw => ?_
  have hoff := te.offset_lt s.cfg w hw
  omega

/-- The two fields are disjoint ranges (R7 item 5). -/
theorem teBase_add_teLen_le_or (s : State) (g : Trigger) :
    teBase s g + s.cfg.teLen ≤ teBase s (otherTrigger g) ∨ teBase s (otherTrigger g) + s.cfg.teLen ≤ teBase s g := by
  obtain ⟨-, -, -, -, -, hdisjoint⟩ := s.cfg.facts
  cases g with
  | first => exact hdisjoint s.modeT
  | second => exact (hdisjoint s.modeT).symm

end Machine

open Machine

/-- Settles O44: the opcode's offset and the six sub-offsets are distinct, so no store hides another. -/
theorem teExtStoresItsBytes : Obligations.TeExtStoresItsBytes := by
  refine ⟨fun _ _ _ _ _ _ _ => rfl, fun s g start keep b m e q hwf => exists_encodeTrigger_next fun x => ?_⟩
  rw [byteAt_writeBytes_extendedEffect hwf, invertedStart_eq_ofNat, frequencyByte_eq_ite]

/-- Settles O47: the stores stay in the field, and the other field is outside it. -/
theorem triggersAreIndependent : Obligations.TriggersAreIndependent := by
  intro s u i g hi hexec
  refine ⟨fun x hx => byteAt_of_triggerOf_of_outside hi hexec hx, fun x hlo hhi => ?_⟩
  have hdisjoint := teBase_add_teLen_le_or s g
  exact byteAt_of_triggerOf_of_outside hi hexec (by omega)

/-- Settles O48: in the two states the same bytes are stored at the same addresses. -/
theorem triggerEncodingIsDeterministic : Obligations.TriggerEncodingIsDeterministic := by
  intro s s' u u' i g hwf hwf' hi hcfg hmode hexec hexec'
  obtain ⟨te, hte⟩ := exists_writeBytes_of_triggerOf hi
  obtain rfl := hte hexec
  obtain rfl := hte hexec'
  have hbase : teBase s' g = teBase s g := by rw [teBase, teBase, hcfg, hmode]
  rw [hbase, hcfg]
  exact ⟨fun x => Memory.read_writeList_eq_or_untouched hwf hwf' _ x _, rfl⟩

/-- Settles O41: the three bytes are one and the same. -/
theorem teNoneZeroesThreeBytes : Obligations.TeNoneZeroesThreeBytes := by
  refine ⟨fun _ => rfl, fun s g hwf => exists_encodeTrigger_next fun x => ?_⟩
  rw [ite_or, ite_or]
  exact State.byteAt_writeBytes_three _ x hwf _ _ _

/-- Settles O42: the effect's three bytes, `start` and `force` as they are. -/
theorem teContStoresThreeBytes : Obligations.TeContStoresThreeBytes :=
  ⟨fun _ _ _ => rfl, fun _ _ _ _ hwf => exists_encodeTrigger_next fun x => State.byteAt_writeBytes_three _ x hwf _ _ _⟩

/-- Settles O43: as for `TE.CONT`, under the opcode of a section. -/
theorem teSectStoresThreeBytes : Obligations.TeSectStoresThreeBytes :=
  ⟨fun _ _ _ => rfl, fun _ _ _ _ hwf => exists_encodeTrigger_next fun x => State.byteAt_writeBytes_three _ x hwf _ _ _⟩

/-- Settles O45: the effect has no byte besides its opcode. -/
theorem teCalStoresOneByte : Obligations.TeCalStoresOneByte :=
  ⟨fun _ => rfl, fun _ _ hwf => exists_encodeTrigger_next fun x =>
    State.byteAt_writeBytes_cons _ x _ hwf List.not_mem_nil⟩

/-- Settles O46: the complement of a byte, the half of a byte, and ten computed values. -/
theorem triggerArithmetic : Obligations.TriggerArithmetic := by
  refine ⟨fun start => ⟨invertedStart_eq_not start, toNat_invertedStart start⟩, fun freq => ?_, by decide⟩
  have hhalf := toNat_frequencyByte freq
  refine ⟨?_, by omega, by omega⟩
  simp only [frequencyByte_eq_ite, ushiftRight_one_eq_zero_iff]

end Sys2Proof
end

section
/-! PROOFS. The algebra of the shifts of R101 and R114: each is linear over xor, R101's is one-to-one where the polynomial is odd
(R7 item 1), and R114's is R101's seen through the reflection of words. -/
namespace Sys2Proof
namespace Machine

theorem reverse_xor {w : Nat} (a b : BitVec w) : (a ^^^ b).reverse = a.reverse ^^^ b.reverse := by
  apply BitVec.eq_of_getLsbD_eq
  intro k hk
  simp [BitVec.getLsbD_reverse, BitVec.getMsbD_xor]

theorem reverse_shiftLeft {w : Nat} (a : BitVec w) (n : Nat) : (a <<< n).reverse = a.reverse >>> n := by
  apply BitVec.eq_of_getLsbD_eq
  intro k hk
  simp [BitVec.getLsbD_reverse, BitVec.getMsbD_shiftLeft, Nat.add_comm]

theorem reverse_injective {w : Nat} : Function.Injective (BitVec.reverse (w := w)) :=
  Function.LeftInverse.injective fun _ => BitVec.reverse_reverse_eq

/-- Two sums added part by part. -/
theorem xor_shuffle (a b p q : Word) : a ^^^ p ^^^ (b ^^^ q) = a ^^^ b ^^^ (p ^^^ q) := by
  ac_rfl

/-- Of three equal summands one is left. -/
theorem xor_three (a b c m : Word) : a ^^^ m ^^^ (b ^^^ m) ^^^ (c ^^^ m) = a ^^^ b ^^^ c ^^^ m := by
  rw [xor_shuffle a b, BitVec.xor_self, BitVec.xor_zero, BitVec.xor_assoc, BitVec.xor_assoc, BitVec.xor_assoc]

/-- What a shift adds to the shifted word, given the bit that is dropped. -/
def crcCarry (poly : Word) (bit : Bool) : Word := if bit then poly else 0#32

@[simp] theorem crcCarry_true (poly : Word) : crcCarry poly true = poly := rfl

@[simp] theorem crcCarry_false (poly : Word) : crcCarry poly false = 0#32 := rfl

theorem getLsbD_crcCarry_zero {poly : Word} (hp : poly.getLsbD 0 = true) (bit : Bool) :
    (crcCarry poly bit).getLsbD 0 = bit := by
  cases bit
  · exact BitVec.getLsbD_zero
  · exact hp

theorem crcCarry_xor (poly : Word) (x y : Bool) : crcCarry poly (x ^^ y) = crcCarry poly x ^^^ crcCarry poly y := by
  cases x <;> cases y <;> simp

section
variable {poly : Word}

theorem crcShift_eq (a : Word) : crcShift poly a = a <<< 1 ^^^ crcCarry poly (a.getLsbD 31) := by
  unfold crcShift
  cases a.getLsbD 31 <;> simp

theorem crcShiftR_eq (a : Word) : crcShiftR poly a = a >>> 1 ^^^ crcCarry poly (a.getLsbD 0) := by
  unfold crcShiftR
  cases a.getLsbD 0 <;> simp

theorem crcShift_xor (a b : Word) : crcShift poly (a ^^^ b) = crcShift poly a ^^^ crcShift poly b := by
  simp only [crcShift_eq, BitVec.shiftLeft_xor_distrib, BitVec.getLsbD_xor, crcCarry_xor, xor_shuffle]

theorem crcShiftR_xor (a b : Word) : crcShiftR poly (a ^^^ b) = crcShiftR poly a ^^^ crcShiftR poly b := by
  simp only [crcShiftR_eq, BitVec.ushiftRight_xor_distrib, BitVec.getLsbD_xor, crcCarry_xor, xor_shuffle]

theorem getLsbD_crcShift_zero (hp : poly.getLsbD 0 = true) (a : Word) : (crcShift poly a).getLsbD 0 = a.getLsbD 31 := by
  rw [crcShift_eq, BitVec.getLsbD_xor, getLsbD_crcCarry_zero hp]
  simp

/-- Bit 0 of the result says which bit was dropped, so an odd polynomial lets a zero come from zero alone. -/
theorem eq_zero_of_crcShift_eq_zero (hp : poly.getLsbD 0 = true) {a : Word} (h : crcShift poly a = 0#32) : a = 0#32 := by
  have htop : a.getLsbD 31 = false := by rw [← getLsbD_crcShift_zero hp, h, BitVec.getLsbD_zero]
  rw [crcShift_eq, htop, crcCarry_false, BitVec.xor_zero] at h
  apply BitVec.eq_of_getLsbD_eq
  intro k hk
  obtain hk' | rfl : k < 31 ∨ k = 31 := by omega
  · have hbit := congrArg (BitVec.getLsbD · (k + 1)) h
    simpa [hk, show k + 1 < 32 by omega] using hbit
  · exact htop

theorem crcShift_injective (hp : poly.getLsbD 0 = true) : Function.Injective (crcShift poly) := by
  intro a b h
  rw [← BitVec.xor_eq_zero_iff] at h ⊢
  exact eq_zero_of_crcShift_eq_zero hp ((crcShift_xor a b).trans h)

theorem crcShifts_eq_iterate (n : Nat) (a : Word) : crcShifts poly n a = (crcShift poly)^[n] a := by
  induction n generalizing a with
  | zero => rfl
  | succ n ih => exact ih _

theorem crcShiftsR_eq_iterate (n : Nat) (a : Word) : crcShiftsR poly n a = (crcShiftR poly)^[n] a := by
  induction n generalizing a with
  | zero => rfl
  | succ n ih => exact ih _

theorem crcShifts_xor (n : Nat) (a b : Word) : crcShifts poly n (a ^^^ b) = crcShifts poly n a ^^^ crcShifts poly n b := by
  simp only [crcShifts_eq_iterate]
  exact Function.Semiconj₂.iterate crcShift_xor n a b

theorem crcShiftsR_xor (n : Nat) (a b : Word) :
    crcShiftsR poly n (a ^^^ b) = crcShiftsR poly n a ^^^ crcShiftsR poly n b := by
  simp only [crcShiftsR_eq_iterate]
  exact Function.Semiconj₂.iterate crcShiftR_xor n a b

theorem crcShifts_injective (hp : poly.getLsbD 0 = true) (n : Nat) : Function.Injective (crcShifts poly n) :=
  funext (crcShifts_eq_iterate n) ▸ (crcShift_injective hp).iterate n

/-- A shift the other way of the reflected word is the reflected shift (R114). -/
theorem crcShiftR_reverse (a : Word) : crcShiftR poly.reverse a.reverse = (crcShift poly a).reverse := by
  have hcarry : crcCarry poly.reverse (a.getLsbD 31) = (crcCarry poly (a.getLsbD 31)).reverse := by
    cases a.getLsbD 31
    · exact (BitVec.reverse_eq_zero_iff.mpr rfl).symm
    · rfl
  rw [crcShiftR_eq, crcShift_eq, reverse_xor, reverse_shiftLeft, ← hcarry, BitVec.getLsbD_reverse]
  rfl

theorem crcShiftsR_reverse (n : Nat) (a : Word) : crcShiftsR poly.reverse n a.reverse = (crcShifts poly n a).reverse := by
  rw [crcShiftsR_eq_iterate, crcShifts_eq_iterate]
  exact ((Function.Semiconj.iterate_right (fun a => (crcShiftR_reverse a).symm) n).eq a).symm

/-- As many shifts as there are zero bits below lose nothing and add nothing. -/
theorem crcShiftsR_of_low_zero {n : Nat} {a : Word} (h : ∀ k, k < n → a.getLsbD k = false) : crcShiftsR poly n a = a >>> n := by
  induction n generalizing a with
  | zero => rfl
  | succ n ih =>
    have hshift : crcShiftR poly a = a >>> 1 := by rw [crcShiftR_eq, h 0 n.succ_pos, crcCarry_false, BitVec.xor_zero]
    have hlow : ∀ k, k < n → (a >>> 1).getLsbD k = false := fun k hk => by
      rw [BitVec.getLsbD_ushiftRight]
      exact h (1 + k) (by omega)
    rw [crcShiftsR, hshift, ih hlow, ← BitVec.shiftRight_add, Nat.add_comm]

end

end Machine
end Sys2Proof
end

section
/-! PROOFS. A step of the checksum is linear in the accumulator and the byte together, and one-to-one in each; so is the fold over
a report's bytes, by induction on their number (O33, O34). The reflected step and its table (O35). -/
namespace Sys2Proof
namespace Machine

/-- A byte where a step adds it to the accumulator: the top eight bits (R101). -/
def crcTop (cfg : Cfg) (b : Byte) : Word := (crcInput cfg b).setWidth 32 <<< 24

section
variable (cfg : Cfg)

theorem crcStep_eq (acc : Word) (b : Byte) : crcStep cfg acc b = crcShifts cfg.crcPoly 8 (acc ^^^ crcTop cfg b) := rfl

theorem crcInput_xor (b c : Byte) : crcInput cfg (b ^^^ c) = crcInput cfg b ^^^ crcInput cfg c := by
  unfold crcInput
  split
  · exact reverse_xor b c
  · rfl

theorem crcInput_injective : Function.Injective (crcInput cfg) := by
  unfold crcInput
  split
  · exact reverse_injective
  · exact Function.injective_id

theorem crcTop_xor (b c : Byte) : crcTop cfg (b ^^^ c) = crcTop cfg b ^^^ crcTop cfg c := by
  simp only [crcTop, crcInput_xor, BitVec.setWidth_xor, BitVec.shiftLeft_xor_distrib]

theorem crcTop_injective : Function.Injective (crcTop cfg) := by
  intro b c h
  refine crcInput_injective cfg (BitVec.eq_of_getLsbD_eq fun k hk => ?_)
  have hbit := congrArg (BitVec.getLsbD · (24 + k)) h
  simpa [crcTop, hk, show 24 + k < 32 by omega] using hbit

/-- A step is linear in the accumulator and the byte together. -/
theorem crcStep_xor (acc acc' : Word) (b b' : Byte) :
    crcStep cfg (acc ^^^ acc') (b ^^^ b') = crcStep cfg acc b ^^^ crcStep cfg acc' b' := by
  simp only [crcStep_eq, crcTop_xor, ← crcShifts_xor, xor_shuffle]

theorem crcStep_eq_iff {acc acc' : Word} {b b' : Byte} :
    crcStep cfg acc b = crcStep cfg acc' b' ↔ acc ^^^ crcTop cfg b = acc' ^^^ crcTop cfg b' :=
  (crcShifts_injective cfg.facts.1 8).eq_iff

theorem crcStep_left_injective (b : Byte) : Function.Injective (crcStep cfg · b) := fun _ _ h =>
  (BitVec.xor_left_inj _).mp ((crcStep_eq_iff cfg).mp h)

theorem crcStep_right_injective (acc : Word) : Function.Injective (crcStep cfg acc) := fun _ _ h =>
  crcTop_injective cfg ((BitVec.xor_right_inj acc).mp ((crcStep_eq_iff cfg).mp h))

theorem crcFinal_injective : Function.Injective (crcFinal cfg) := by
  intro a b h
  have hrefl := (BitVec.xor_left_inj _).mp h
  split at hrefl
  · exact reverse_injective hrefl
  · exact hrefl

/-- The final reflection and the final addition keep the xor of three. -/
theorem crcFinal_xor (a b c : Word) :
    crcFinal cfg (a ^^^ b ^^^ c) = crcFinal cfg a ^^^ crcFinal cfg b ^^^ crcFinal cfg c := by
  unfold crcFinal
  split
  · rw [reverse_xor, reverse_xor, xor_three]
  · rw [xor_three]

end

/-- Reflection carries a byte at the low end of a word to the top. -/
theorem reverse_setWidth (b : Byte) : (b.setWidth 32).reverse = b.reverse.setWidth 32 <<< 24 := by
  apply BitVec.eq_of_getLsbD_eq
  intro k hk
  have hindex : k + 8 - 32 = k - 24 := by omega
  simp only [BitVec.getLsbD_reverse, BitVec.getMsbD_setWidth, BitVec.getLsbD_shiftLeft, BitVec.getLsbD_setWidth, hindex]
  rcases Nat.lt_or_ge k 24 with hlow | hhigh
  · simp [hlow]
  · simp [hk, hhigh, show k - 24 < 32 by omega]

/-- What lies in the low byte is shifted out. -/
theorem xor_setWidth_ushiftRight_eight (a : Word) (b : Byte) : (a ^^^ b.setWidth 32) >>> 8 = a >>> 8 := by
  have hbyte : b.setWidth 32 >>> 8 = 0#32 := by
    apply BitVec.eq_of_getLsbD_eq
    intro k hk
    simp
  rw [BitVec.ushiftRight_xor_distrib, hbyte, BitVec.xor_zero]

section
variable {cfg : Cfg}

theorem reverse_crcTop (h : cfg.crcRefIn = true) (b : Byte) : (crcTop cfg b).reverse = b.setWidth 32 := by
  rw [crcTop, crcInput, if_pos h, ← reverse_setWidth, BitVec.reverse_reverse_eq]

theorem crcStepR_reverse (h : cfg.crcRefIn = true) (acc : Word) (b : Byte) :
    crcStepR cfg acc.reverse b = (crcStep cfg acc b).reverse := by
  rw [crcStepR, ← reverse_crcTop h, ← reverse_xor, crcShiftsR_reverse, crcStep_eq]

theorem crcFinalR_reverse (h : cfg.crcRefOut = true) (acc : Word) : crcFinalR cfg acc.reverse = crcFinal cfg acc := by
  simp only [crcFinalR, crcFinal, h, if_true]

theorem crcTable_eq (k : Byte) : crcTable cfg k = crcShiftsR cfg.crcPoly.reverse 8 (k.setWidth 32) := by
  rw [crcTable, crcStepR, BitVec.setWidth_zero, BitVec.xor_zero]

/-- Eight shifts of a word: the table's entry for its low byte, and the rest of it shifted as it is (R114). -/
theorem crcShiftsR_eight (a : Word) :
    crcShiftsR cfg.crcPoly.reverse 8 a = crcTable cfg (a.extractLsb' 0 8) ^^^ a >>> 8 := by
  have hrest : ∀ k, k < 8 → (a ^^^ (a.extractLsb' 0 8).setWidth 32).getLsbD k = false := fun k hk => by
    simp [hk, show k < 32 by omega]
  calc crcShiftsR cfg.crcPoly.reverse 8 a
      = crcShiftsR cfg.crcPoly.reverse 8 ((a.extractLsb' 0 8).setWidth 32 ^^^ (a ^^^ (a.extractLsb' 0 8).setWidth 32)) := by
        rw [BitVec.xor_comm a, ← BitVec.xor_assoc, BitVec.xor_self, BitVec.zero_xor]
    _ = crcTable cfg (a.extractLsb' 0 8) ^^^ a >>> 8 := by
        rw [crcShiftsR_xor, crcShiftsR_of_low_zero hrest, xor_setWidth_ushiftRight_eight, crcTable_eq]

theorem crcStepTable_eq (r : Word) (b : Byte) : crcStepTable cfg r b = crcStepR cfg r b := by
  rw [crcStepR, crcShiftsR_eight, xor_setWidth_ushiftRight_eight, crcStepTable]

end

theorem State.fold_zero (s : State) : s.fold 0 = crcStart s.cfg := s.fold_eq 0

theorem State.leadingBytes_succ (s : State) (n : Nat) : s.leadingBytes (n + 1) = s.leadingBytes n ++ [s.byteAt n] := by
  simp only [State.leadingBytes, List.range_succ, List.map_append, List.map_cons, List.map_nil]

theorem State.fold_succ (s : State) (n : Nat) : s.fold (n + 1) = crcStep s.cfg (s.fold n) (s.byteAt n) := by
  rw [State.fold, State.leadingBytes_succ, crcFold_append]
  rfl

/-- The folds part where the byte differs, and equal bytes after it keep them apart. -/
theorem State.fold_ne_of_byteAt_ne {s t : State} {n i : Nat} (hcfg : s.cfg = t.cfg) (hi : i < n)
    (hne : s.byteAt i ≠ t.byteAt i) (hsame : ∀ j, j < n → j ≠ i → s.byteAt j = t.byteAt j) : s.fold n ≠ t.fold n := by
  induction n with
  | zero => omega
  | succ n ih =>
    rw [State.fold_succ, State.fold_succ, ← hcfg]
    obtain rfl | hlt : i = n ∨ i < n := by omega
    · rw [State.fold_congr hcfg fun j hj => hsame j (by omega) (by omega)]
      exact (crcStep_right_injective s.cfg _).ne hne
    · rw [hsame n (by omega) (by omega)]
      exact (crcStep_left_injective s.cfg _).ne (ih hlt fun j hj => hsame j (by omega))

theorem State.fold_xor {a b c x : State} {n : Nat} (hb : b.cfg = a.cfg) (hc : c.cfg = a.cfg) (hx : x.cfg = a.cfg)
    (h : ∀ i, i < n → x.byteAt i = a.byteAt i ^^^ b.byteAt i ^^^ c.byteAt i) :
    x.fold n = a.fold n ^^^ b.fold n ^^^ c.fold n := by
  induction n with
  | zero => simp [State.fold_zero, hb, hc, hx]
  | succ n ih =>
    have hleading := ih fun i hi => h i (by omega)
    simp only [State.fold_succ, hb, hc, hx, h n n.lt_succ_self, hleading, crcStep_xor]

end Machine

open Machine

/-- Settles O33: the folds differ, and the final form is one-to-one. -/
theorem checksumSeesOneChangedByte : Obligations.ChecksumSeesOneChangedByte := by
  intro s t n i hcfg hi hne hsame
  rw [State.checksum, State.checksum, ← hcfg]
  exact (crcFinal_injective s.cfg).ne (State.fold_ne_of_byteAt_ne hcfg hi hne hsame)

/-- Settles O34: the folds add up, and the final form keeps the sum of three. -/
theorem checksumXorLaw : Obligations.ChecksumXorLaw := by
  intro a b c x n hb hc hx h
  simp only [State.checksum, State.fold_xor hb hc hx h, hb, hc, hx, crcFinal_xor]

/-- Settles O35: the step, the final form and the table. -/
theorem reflectedFormIsEquivalent : Obligations.ReflectedFormIsEquivalent :=
  fun _ acc r b hin hout => ⟨crcStepR_reverse hin acc b, crcFinalR_reverse hout acc, crcStepTable_eq r b⟩

end Sys2Proof
end

section
/-! PROOFS. The checksum commands one at a time: what each responds and what it leaves as it was (O24 to O28). The state that
wireless `SEAL` leaves has the checksum of `[0, 74)` stored behind those bytes, which are as they were; so `SEAL` repeats itself
and is `CKSUM 74` with four stores (O30, O32). Streaming the report's leading bytes is `CKSUM` of their number (O31). -/
namespace Sys2Proof
namespace Machine

/-- Storing the same bytes again changes nothing. -/
theorem Memory.writeList_idem {m : Memory} (hm : Memory.wf m = true) (base : Nat) (ws : List (Nat × Byte)) :
    Memory.writeList (Memory.writeList m base ws) base ws = Memory.writeList m base ws := by
  have hm' := Memory.wf_writeList hm base ws
  refine Memory.ext_of_read (Memory.wf_writeList hm' base ws) hm' fun x => ?_
  rcases Memory.read_writeList_eq_or_untouched hm hm' base x ws with heq | ⟨-, huntouched⟩
  · exact heq
  · exact huntouched

/-- A word is its four bytes, the most significant first. -/
theorem append_bytes (w : Word) : w.extractLsb' 24 8 ++ w.extractLsb' 16 8 ++ w.extractLsb' 8 8 ++ w.extractLsb' 0 8 = w := by
  rw [BitVec.extractLsb'_append_extractLsb'_eq_extractLsb' (show 24 = 16 + 8 from rfl),
    BitVec.extractLsb'_append_extractLsb'_eq_extractLsb' (show 16 = 8 + 8 from rfl),
    BitVec.extractLsb'_append_extractLsb'_eq_extractLsb' (show 8 = 0 + 8 from rfl)]
  exact BitVec.extractLsb'_eq_self

/-- The state wireless `SEAL` leaves (R109). -/
def State.withSeal (s : State) : State :=
  ((s.withNewAcc (s.fold Config.cksLen)).writeWord Config.cksOff (s.checksum Config.cksLen)).withResp
    (.word (s.checksum Config.cksLen))

section
variable {s : State}

theorem exec_sealReport_eq_withSeal (h : s.modeT = .wirelessRadio) : exec .sealReport s = .next s.withSeal :=
  exec_sealReport_wireless h

theorem State.byteAt_withSeal (hwf : Memory.wf s.rb = true) (x : Nat) :
    s.withSeal.byteAt x = if x = 74 then (s.checksum 74).extractLsb' 0 8 else if x = 75 then (s.checksum 74).extractLsb' 8 8
      else if x = 76 then (s.checksum 74).extractLsb' 16 8 else if x = 77 then (s.checksum 74).extractLsb' 24 8
      else s.byteAt x :=
  State.byteAt_writeWord (s := s.withNewAcc (s.fold 74)) hwf 74 x (s.checksum 74)

theorem State.byteAt_withSeal_of_lt (hwf : Memory.wf s.rb = true) {x : Nat} (hx : x < 74) : s.withSeal.byteAt x = s.byteAt x := by
  rw [State.byteAt_withSeal hwf, if_neg (by omega), if_neg (by omega), if_neg (by omega), if_neg (by omega)]

theorem State.fold_withSeal (hwf : Memory.wf s.rb = true) : s.withSeal.fold 74 = s.fold 74 :=
  State.fold_congr rfl fun _ => State.byteAt_withSeal_of_lt hwf

theorem State.checksum_withSeal (hwf : Memory.wf s.rb = true) : s.withSeal.checksum 74 = s.checksum 74 :=
  State.checksum_congr rfl fun _ => State.byteAt_withSeal_of_lt hwf

theorem State.storedChecksum_withSeal (hwf : Memory.wf s.rb = true) : s.withSeal.storedChecksum = s.checksum 74 := by
  simp only [State.storedChecksum, State.byteAt_withSeal hwf]
  exact append_bytes (s.checksum 74)

theorem State.withSeal_withSeal (hwf : Memory.wf s.rb = true) : s.withSeal.withSeal = s.withSeal := by
  rw [State.withSeal, Config.cksLen, State.fold_withSeal hwf, State.checksum_withSeal hwf]
  exact congrArg (fun m => ((s.withNewAcc (s.fold 74)).withRb m).withResp (.word (s.checksum 74)))
    (Memory.writeList_idem hwf Config.cksOff (littleEndian (s.checksum 74)))

/-- `RB.WR` of several bytes at valid addresses: the stores one after the other, and nothing but the response differs besides. -/
theorem exists_execAll_map_rbWr (ws : List (Offset × Byte)) (h : ∀ w ∈ ws, w.1.toNat < s.logicalLen) (r : Response) :
    ∃ r', execAll (ws.map fun w => Instr.rbWr w.1 w.2) (s.withResp r)
      = .next ((s.writeBytes 0 (ws.map fun w => (w.1.toNat, w.2))).withResp r') := by
  induction ws generalizing s r with
  | nil => exact ⟨r, rfl⟩
  | cons w ws ih =>
    obtain ⟨hw, hws⟩ := List.forall_mem_cons.mp h
    obtain ⟨r', hr'⟩ := ih (s := s.writeByte (0 + w.1.toNat) w.2) hws .ok
    refine ⟨r', (execAll_cons_of_next (exec_rbWr (s := s.withResp r) w.2 hw) _).trans ?_⟩
    rw [← Nat.zero_add w.1.toNat]
    exact hr'

/-- Four stores of a byte are the store of a word (R34). -/
theorem exists_execAll_rbWr_word (h : s.modeT = .wirelessRadio) (c : Word) (r : Response) :
    ∃ r', execAll [.rbWr 74#10 (c.extractLsb' 0 8), .rbWr 75#10 (c.extractLsb' 8 8), .rbWr 76#10 (c.extractLsb' 16 8),
      .rbWr 77#10 (c.extractLsb' 24 8)] (s.withResp r) = .next ((s.writeWord 74 c).withResp r') := by
  have hlen : s.logicalLen = 547 := congrArg Config.outLen h
  refine exists_execAll_map_rbWr [(74#10, c.extractLsb' 0 8), (75#10, c.extractLsb' 8 8), (76#10, c.extractLsb' 16 8),
    (77#10, c.extractLsb' 24 8)] ?_ r
  simp [hlen]

/-- Bytes streamed one after the other: the accumulator absorbs them in order, and nothing but the response differs besides. -/
theorem exists_execAll_map_crcByte (h : s.accv = true) (ds : List Byte) (cmds : List Instr) (r : Response) :
    ∃ r', execAll (ds.map Instr.crcByte ++ cmds) (s.withResp r)
      = execAll cmds ((s.withAcc (ds.foldl (crcStep s.cfg) s.acc)).withResp r') := by
  induction ds generalizing s r with
  | nil => exact ⟨r, rfl⟩
  | cons d ds ih =>
    obtain ⟨r', hr'⟩ := ih (s := s.withAcc (crcStep s.cfg s.acc d)) h .ok
    exact ⟨r', (execAll_cons_of_next (exec_crcByte (s := s.withResp r) d h) _).trans hr'⟩

/-- `CRC.INIT` and bytes streamed: the accumulator is their fold. -/
theorem exists_execAll_crcInit_map_crcByte (s : State) (ds : List Byte) (cmds : List Instr) :
    ∃ r, execAll (.crcInit :: ds.map Instr.crcByte ++ cmds) s = execAll cmds ((s.withNewAcc (crcFold s.cfg ds)).withResp r) := by
  rw [List.cons_append, execAll_cons_of_next (exec_crcInit s), crcFold_eq_foldl]
  exact exists_execAll_map_crcByte (s := s.withNewAcc (crcStart s.cfg)) rfl ds cmds .ok

end

end Machine

open Machine

/-- Settles O30: in wired mode only the response is set, and in wireless mode the sealed bytes are what they were. -/
theorem sealTwiceIsSealOnce : Obligations.SealTwiceIsSealOnce := by
  intro s u hwf hseal
  cases hmode : s.modeT with
  | wired =>
    obtain rfl := Host.Outcome.next.inj ((exec_sealReport_wired hmode).symm.trans hseal)
    exact exec_sealReport_wired hmode
  | wirelessRadio =>
    obtain rfl := Host.Outcome.next.inj ((exec_sealReport_eq_withSeal hmode).symm.trans hseal)
    have hagain : exec .sealReport s.withSeal = .next s.withSeal.withSeal := exec_sealReport_eq_withSeal hmode
    rwa [State.withSeal_withSeal hwf] at hagain

/-- Settles O31: `CRC.FIN` responds the code of the fold that the stream has left. -/
theorem cksumEqualsStreaming : Obligations.CksumEqualsStreaming := by
  intro s n hn
  obtain ⟨r, hstream⟩ := exists_execAll_crcInit_map_crcByte s (s.leadingBytes n.toNat) [.crcFin]
  rw [hstream, exec_cksum hn, execAll_cons_of_next (exec_crcFin rfl)]
  rfl

/-- Settles O32: the four stores are those of the word, and the sealed bytes are what they were. -/
theorem sealEqualsCksumAndStores : Obligations.SealEqualsCksumAndStores := by
  intro s hwf hmode
  have hcksum : ∀ {t : State}, t.modeT = .wirelessRadio →
      exec (.cksum 74#10) t = .next ((t.withNewAcc (t.fold 74)).withResp (.word (t.checksum 74))) := fun {t} ht =>
    exec_cksum (by rw [State.logicalLen, ht]; decide)
  have hstored : s.withSeal.storedChecksum = s.withSeal.checksum 74 :=
    (State.storedChecksum_withSeal hwf).trans (State.checksum_withSeal hwf).symm
  obtain ⟨r, hstores⟩ := exists_execAll_rbWr_word (s := s.withNewAcc (s.fold 74)) hmode (s.checksum 74) (.word (s.checksum 74))
  refine ⟨s.withSeal, s.withSeal.withResp r, s.checksum 74, exec_sealReport_eq_withSeal hmode, rfl, ?_, rfl,
    State.storedChecksum_withSeal hwf, hstored, _, hcksum hmode, ?_⟩
  · exact (execAll_cons_of_next (hcksum hmode) _).trans hstores
  · exact congrArg (some <| Response.word ·) hstored.symm

/-- Settles O24: the new accumulator is `crc_start()`, whatever the old one. -/
theorem crcInitStartsTheAccumulator : Obligations.CrcInitStartsTheAccumulator :=
  ⟨rfl, fun s => ⟨_, exec_crcInit s, rfl, rfl, rfl, ⟨rfl, fun _ => rfl⟩, rfl, ⟨rfl, rfl, rfl⟩⟩⟩

/-- Settles O25: the two values of `ACCV`. -/
theorem crcByteAbsorbsOneByte : Obligations.CrcByteAbsorbsOneByte := by
  refine ⟨fun _ => rfl, fun s d h => ?_, fun s d h => ?_⟩
  · exact ⟨_, exec_crcByte d h, rfl, h, rfl, ⟨rfl, fun _ => rfl⟩, rfl, ⟨rfl, rfl, rfl⟩⟩
  · exact exec_crcByte_fault d h ▸ exists_raise_faultTaken .sequenceFault s

/-- Settles O26: the two values of `ACCV`. -/
theorem crcFinKeepsTheAccumulator : Obligations.CrcFinKeepsTheAccumulator := by
  refine ⟨rfl, fun s h => ?_, fun s h => ?_⟩
  · exact ⟨_, exec_crcFin h, rfl, s.sameAcc_withResp _, s.sameReport_withResp _, rfl, s.sameHost_withResp _⟩
  · exact exec_crcFin_fault h ▸ exists_raise_faultTaken .sequenceFault s

/-- Settles O27: lengths up to the report's, and above it. -/
theorem cksumOfAPrefix : Obligations.CksumOfAPrefix := by
  refine ⟨fun _ => rfl, fun s n h => ?_, fun s n h => ?_⟩
  · exact ⟨_, exec_cksum h, rfl, rfl, rfl, ⟨rfl, fun _ => rfl⟩, rfl, ⟨rfl, rfl, rfl⟩⟩
  · exact exec_cksum_fault h ▸ exists_raise_faultTaken .lengthFault s

/-- Settles O28: the two transports. -/
theorem sealStoresTheChecksum : Obligations.SealStoresTheChecksum := by
  refine ⟨rfl, fun s hwf hmode => ?_, fun s hmode => ?_⟩
  · exact ⟨_, _, exec_sealReport_eq_withSeal hmode, rfl, rfl, rfl, rfl, State.byteAt_withSeal hwf, rfl, rfl, ⟨rfl, rfl, rfl⟩⟩
  · exact ⟨_, exec_sealReport_wired hmode, rfl, s.sameReport_withResp _, s.sameAcc_withResp _, rfl, s.sameHost_withResp _⟩

end Sys2Proof
end

section
/-! PROOFS. The invariant along every run, and what it says of the report's end (O56); the report-buffer and mode commands (O19 to
O22). -/
namespace Sys2Proof
namespace Machine

/-- The induction over runs, once: the invariant does not see the waiting moves, and the steps keep it. -/
theorem Reachable.inv {cfg : Cfg} {s : State} (h : Reachable cfg s) : s.Inv := by
  induction h with
  | reset => exact State.resetFor_inv cfg
  | present m _ ih => exact ih
  | step _ hstep ih => exact everyStepKeepsTheInvariant _ _ ih hstep

/-- The report of a state with the invariant is zero from its logical length on (R13). -/
theorem State.byteAt_of_logicalLen_le {s : State} (hs : s.Inv) {a : Nat} (ha : s.logicalLen ≤ a) : s.byteAt a = 0x00#8 := by
  obtain ⟨-, hbelow, -, -⟩ := hs
  exact Memory.read_of_below hbelow ha

end Machine

open Machine

/-- Settles O56: a reachable state has the invariant, and the wired report is 48 bytes long. -/
theorem wiredReportEndsAtFortyEight : Obligations.WiredReportEndsAtFortyEight := by
  intro cfg s hreach hwired i hi _
  have hlen : s.logicalLen = 48 := congrArg Config.outLen hwired
  exact State.byteAt_of_logicalLen_le hreach.inv (hlen ▸ hi)

/-- Settles O19: the buffer is cleared in the state with the new transport, whatever the old one. -/
theorem modeSetStartsAFreshReport : Obligations.ModeSetStartsAFreshReport :=
  ⟨fun _ => rfl, fun s t =>
    ⟨_, exec_modeSet t s, rfl, (s.withMode t).byteAt_clearRb, rfl, rfl, ⟨rfl, rfl⟩, ⟨rfl, rfl, rfl⟩⟩⟩

/-- Settles O20: a cleared buffer reads 0x00 everywhere. -/
theorem rbClrClearsTheReport : Obligations.RbClrClearsTheReport :=
  ⟨rfl, fun s => ⟨_, exec_rbClr s, s.byteAt_clearRb, rfl, rfl, rfl, ⟨rfl, rfl⟩, ⟨rfl, rfl, rfl⟩⟩⟩

/-- Settles O21: addresses inside the report, and outside it. -/
theorem rbWrStoresOneByte : Obligations.RbWrStoresOneByte := by
  refine ⟨fun _ _ => rfl, fun s a d hwf ha => ?_, fun s a d ha => ?_⟩
  · exact ⟨_, exec_rbWr d ha, fun x => State.byteAt_writeByte hwf _ x d, rfl, rfl, rfl, ⟨rfl, rfl⟩, ⟨rfl, rfl, rfl⟩⟩
  · exact exec_rbWr_fault d ha ▸ exists_raise_faultTaken .addressFault s

/-- Settles O22: addresses inside the report, and outside it. -/
theorem rbRdReadsOneByte : Obligations.RbRdReadsOneByte := by
  refine ⟨fun _ => rfl, fun s a ha => ?_, fun s a ha => ?_⟩
  · exact ⟨_, exec_rbRd ha, rfl, s.sameReport_withResp _, rfl, s.sameAcc_withResp _, s.sameHost_withResp _⟩
  · exact exec_rbRd_fault ha ▸ exists_raise_faultTaken .addressFault s

end Sys2Proof
end

section
/-! PROOFS. Faults: which command raises which and what it leaves as it was (O49, O50), a run of commands and its recorded cause
(O53), and the cases without a fault or without a command (O11, O51). -/
namespace Sys2Proof
namespace Machine

/-- An effect responds a fault only by being that fault. -/
theorem Effect.eq_fault_of_result_resp {e : Effect} {s : State} {c : Cause} (he : e.Legal s)
    (h : (e.result s).resp = some (.fault c)) : e = .fault c := by
  cases e with
  | fault c' =>
    cases h
    rfl
  | update r t m acc =>
    obtain ⟨hr, -, -⟩ := he
    exact absurd (Option.some.inj h) (hr c)

/-- The commands that raise a cause, and when: R131 without the words that do not decode. -/
def Raises (s : State) (i : Instr) : Cause → Prop
  | .illegalCommand => False
  | .addressFault => ∃ a, Config.outLen s.modeT ≤ a.toNat ∧ (i = .rbRd a ∨ ∃ d, i = .rbWr a d)
  | .lengthFault => ∃ n, Config.outLen s.modeT < n.toNat ∧ i = .cksum n
  | .sequenceFault => s.accv = false ∧ (i = .crcFin ∨ ∃ d, i = .crcByte d)

theorem exec_of_raises {s : State} {i : Instr} {c : Cause} (h : Raises s i c) : exec i s = raise c s := by
  cases c with
  | illegalCommand => exact h.elim
  | addressFault =>
    obtain ⟨a, ha, rfl | ⟨d, rfl⟩⟩ := h
    · exact exec_rbRd_fault ha
    · exact exec_rbWr_fault d ha
  | lengthFault =>
    obtain ⟨n, hn, rfl⟩ := h
    exact exec_cksum_fault hn
  | sequenceFault =>
    obtain ⟨hv, rfl | ⟨d, rfl⟩⟩ := h
    · exact exec_crcFin_fault hv
    · exact exec_crcByte_fault d hv

/-- The command responds, and what it responds is no fault. -/
def Succeeds (s : State) (i : Instr) : Prop := ∃ t r, exec i s = .next t ∧ t.resp = some r ∧ ∀ c, r ≠ .fault c

/-- A command whose checks pass does not fault. -/
theorem exists_raises_or_succeeds (i : Instr) (s : State) : (∃ c, Raises s i c) ∨ Succeeds s i := by
  cases i with
  | rbWr a d =>
    rcases Nat.lt_or_ge a.toNat s.logicalLen with hlt | hge
    · exact .inr ⟨_, _, exec_rbWr d hlt, rfl, by simp⟩
    · exact .inl ⟨.addressFault, a, hge, .inr ⟨d, rfl⟩⟩
  | rbRd a =>
    rcases Nat.lt_or_ge a.toNat s.logicalLen with hlt | hge
    · exact .inr ⟨_, _, exec_rbRd hlt, rfl, by simp⟩
    · exact .inl ⟨.addressFault, a, hge, .inl rfl⟩
  | crcByte d =>
    cases hv : s.accv with
    | true => exact .inr ⟨_, _, exec_crcByte d hv, rfl, by simp⟩
    | false => exact .inl ⟨.sequenceFault, hv, .inr ⟨d, rfl⟩⟩
  | crcFin =>
    cases hv : s.accv with
    | true => exact .inr ⟨_, _, exec_crcFin hv, rfl, by simp⟩
    | false => exact .inl ⟨.sequenceFault, hv, .inl rfl⟩
  | cksum n =>
    rcases Nat.lt_or_ge s.logicalLen n.toNat with hgt | hle
    · exact .inl ⟨.lengthFault, n, hgt, rfl⟩
    · exact .inr ⟨_, _, exec_cksum hle, rfl, by simp⟩
  | sealReport =>
    cases hmode : s.modeT with
    | wired => exact .inr ⟨_, _, exec_sealReport_wired hmode, rfl, by simp⟩
    | wirelessRadio => exact .inr ⟨_, _, exec_sealReport_wireless hmode, rfl, by simp⟩
  | dpadDec b => exact .inr ⟨_, _, exec_dpadDec b s, rfl, by simp⟩
  | modeSet _ | rbClr | crcInit | teNone _ | teCont _ _ _ | teSect _ _ _ | teExt _ _ _ _ _ _ _ | teCal _ =>
    exact .inr ⟨_, .ok, rfl, rfl, by simp⟩

/-- The response to a command is a fault exactly where R131 says so. -/
theorem resp_eq_fault_iff_raises {i : Instr} {s t : State} {c : Cause} (h : exec i s = .next t) :
    t.resp = some (.fault c) ↔ Raises s i c := by
  have hraise : ∀ {c'}, Raises s i c' → t.resp = some (.fault c') := fun hc => by
    obtain rfl := Host.Outcome.next.inj (h.symm.trans ((exec_of_raises hc).trans (raise_eq _ s)))
    rfl
  refine ⟨fun hresp => ?_, hraise⟩
  rcases exists_raises_or_succeeds i s with ⟨c', hc⟩ | ⟨t', r, ht', hr, hne⟩
  · obtain rfl : c' = c := Response.fault.inj (Option.some.inj ((hraise hc).symm.trans hresp))
    exact hc
  · obtain rfl : t' = t := Host.Outcome.next.inj (ht'.symm.trans h)
    exact absurd (Option.some.inj (hr.symm.trans hresp)) (hne c)

/-- The induction over runs of commands, once: what every command keeps holds at the end, and the run has an end. -/
theorem exists_execAll_next {P : State → Prop} (hkeep : ∀ {e : Effect} {s}, e.Legal s → P s → P (e.result s))
    (cmds : List Instr) {s : State} (hs : P s) : ∃ t, execAll cmds s = .next t ∧ P t := by
  induction cmds generalizing s with
  | nil => exact ⟨s, rfl, hs⟩
  | cons i cmds ih =>
    obtain ⟨e, he⟩ := exists_effect s i
    obtain ⟨t, hrun, ht⟩ := ih (hkeep he.legal hs)
    exact ⟨t, (execAll_cons_of_next (he.exec_eq (.refl s)) cmds).trans hrun, ht⟩

theorem execAll_append_of_next {before : List Instr} {s t : State} (h : execAll before s = .next t) (after : List Instr) :
    execAll (before ++ after) s = execAll after t := by
  induction before generalizing s with
  | nil =>
    cases h
    rfl
  | cons i before ih =>
    obtain ⟨e, he⟩ := exists_effect s i
    have hexec : exec i s = .next (e.result s) := he.exec_eq (.refl s)
    rw [execAll_cons_of_next hexec] at h
    exact (execAll_cons_of_next hexec _).trans (ih h)

theorem Effect.result_err_ne_zero {e : Effect} {s : State} (h : s.err ≠ 0#3) : (e.result s).err ≠ 0#3 := by
  rwa [Effect.result_err_of_ne_zero h]

theorem State.resp_ne_fault_of_noFault {s : State} (hs : s.Inv) (h : s.NoFault) (c : Cause) : s.resp ≠ some (.fault c) := by
  intro hresp
  obtain ⟨-, -, -, hrecorded⟩ := hs
  rw [State.faultRecorded, hresp] at hrecorded
  exact of_decide_eq_true hrecorded h

end Machine

open Machine

/-- Settles O50: a word that does not decode raises its own cause and no other; one that decodes raises what its command does. -/
theorem whichCommandRaisesWhich : Obligations.WhichCommandRaisesWhich := by
  intro s t cw rest c hin hstep
  cases hd : decode cw with
  | error e =>
    have hrun := (step_of_inputs_command hin).trans (runWord_of_decode_error hd _)
    obtain rfl := Host.Outcome.next.inj (hstep.symm.trans (hrun.trans (raise_eq _ _)))
    cases c <;> simp
  | ok i =>
    rw [resp_eq_fault_iff_raises ((step_of_decode_ok hin hd).symm.trans hstep)]
    cases c <;> simp [Raises]

/-- Settles O49: the effect that responds a fault is that fault, which writes `ERR` and the response alone. -/
theorem faultsArePrecise : Obligations.FaultsArePrecise := by
  intro s t cw rest c hin hstep hresp
  obtain ⟨e, hlegal, -, hrun⟩ := exists_effect_runWord cw (s.withInputs rest)
  obtain rfl := Host.Outcome.next.inj (hstep.symm.trans ((step_of_inputs_command hin).trans (hrun (.refl _))))
  obtain rfl := Effect.eq_fault_of_result_resp hlegal hresp
  exact ⟨rfl, rfl, rfl, rfl, rfl, rfl, rfl⟩

/-- Settles O53: a cause recorded earlier would still be there at the end, and a fault responded is a cause recorded. -/
theorem successfulRunNeverFaulted : Obligations.SuccessfulRunNeverFaulted := by
  rintro cfg before after ⟨u, hrun, hu⟩
  obtain ⟨t, hbefore, hinv⟩ := exists_execAll_next Effect.result_inv before (State.resetFor_inv cfg)
  have hafter : execAll after t = .next u := (execAll_append_of_next hbefore after).symm.trans hrun
  have hnoFault : t.NoFault := by
    by_contra hne
    obtain ⟨u', hu', hne'⟩ := exists_execAll_next (P := fun s => s.err ≠ 0#3) (fun _ => Effect.result_err_ne_zero) after hne
    obtain rfl : u' = u := Host.Outcome.next.inj (hu'.symm.trans hafter)
    exact hne' hu
  exact ⟨t, hbefore, hnoFault, State.resp_ne_fault_of_noFault hinv hnoFault⟩

/-- Settles O11: that a step without a waiting move is no change is entry 1 of the assumption log. -/
theorem stepWithoutInput : Obligations.StepWithoutInput := fun _ => step_of_inputs_nil

/-- Settles O51: the hard zeroes of the ROM, wired `SEAL`, a trigger effect's stores, and the fold of no bytes. -/
theorem definedCasesDoNotFault : Obligations.DefinedCasesDoNotFault := by
  refine ⟨fun s b hb => ?_, fun _ => exec_sealReport_wired, fun s i g hi => ?_, fun s => ?_⟩
  · rw [exec_dpadDec, dpadRom_of_le ((toNat_lowNibble b).symm ▸ hb), EdgeFlags.clear]
  · obtain ⟨te, hte⟩ := exec_of_triggerOf hi
    exact ⟨_, (hte s).trans (encodeTrigger_eq g te s), rfl, rfl⟩
  · have hchecksum : s.checksum 0 = crcFinal s.cfg (crcStart s.cfg) := by rw [State.checksum_eq, State.fold_zero]
    exact ⟨_, exec_cksum (Nat.zero_le _), congrArg (some <| Response.word ·) hchecksum, rfl⟩

end Sys2Proof
end

section
/-! PROOFS. The host's reset (O12), and the hazards after it: a report changed behind its sealed checksum (O36, O59), and a stream
interrupted by a command that takes the accumulator for itself (O37). -/
namespace Sys2Proof
namespace Machine

section
variable {s u v : State}

/-- The checksum field lies behind the bytes it is the checksum of. -/
theorem State.storedChecksum_congr (h : ∀ y, 74 ≤ y → v.byteAt y = u.byteAt y) : v.storedChecksum = u.storedChecksum := by
  rw [State.storedChecksum, h 77 (by decide), h 76 (by decide), h 75 (by decide), h 74 (by decide), State.storedChecksum]

theorem State.wf_withSeal (hwf : Memory.wf s.rb = true) : Memory.wf s.withSeal.rb = true := Memory.wf_writeList hwf _ _

theorem State.sealCurrent_withSeal (hwf : Memory.wf s.rb = true) : s.withSeal.SealCurrent :=
  (State.storedChecksum_withSeal hwf).trans (State.checksum_withSeal hwf).symm

/-- One byte changed under a current checksum, and nothing behind it: the stored value stays and is stale (R112, R154). -/
theorem State.SealCurrent.stale_of_byteAt_ne {x : Nat} (hu : u.SealCurrent)
    (hbehind : ∀ y, 74 ≤ y → v.byteAt y = u.byteAt y) (hx : x < 74) (hne : v.byteAt x ≠ u.byteAt x)
    (hsame : ∀ y, y < 74 → y ≠ x → v.byteAt y = u.byteAt y) (hcfg : v.cfg = u.cfg) :
    ¬ v.SealCurrent ∧ v.storedChecksum = u.storedChecksum := by
  have hstored := State.storedChecksum_congr hbehind
  have hchecksum : v.checksum 74 ≠ u.checksum 74 := checksumSeesOneChangedByte v u 74 x hcfg hx hne hsame
  exact ⟨fun hv => hchecksum (hv.symm.trans (hstored.trans hu)), hstored⟩

/-- `CRC.FIN` after a stream that `i` has interrupted: where `i` leaves the fold of `n` bytes of the report and no fault, the
streamed bytes are lost (R157). -/
theorem exists_execAll_interruptedStream {i : Instr} {n : Nat}
    (hi : ∀ t : State, t.modeT = s.modeT →
      ∃ u, exec i t = .next u ∧ u.accv = true ∧ crcFinal u.cfg u.acc = t.checksum n ∧ u.err = t.err) (ds : List Byte) :
    ∃ u, execAll (.crcInit :: ds.map Instr.crcByte ++ [i, .crcFin]) s = .next u
      ∧ u.resp = some (.word (s.checksum n)) ∧ u.err = s.err := by
  obtain ⟨r, hstream⟩ := exists_execAll_crcInit_map_crcByte s ds [i, .crcFin]
  obtain ⟨u, hexec, hvalid, hfinal, herr⟩ := hi ((s.withNewAcc (crcFold s.cfg ds)).withResp r) rfl
  have hfin := (execAll_cons_of_next hexec [.crcFin]).trans (execAll_cons_of_next (exec_crcFin hvalid) [])
  exact ⟨_, hstream.trans hfin, congrArg (some <| Response.word ·) hfinal, herr⟩

end

end Machine

open Machine

/-- Settles O36: the store is the one change, and its address lies before the checksum field. -/
theorem rbWrAfterSealIsStale : Obligations.RbWrAfterSealIsStale := by
  intro s u v a d hwf hmode hseal ha hd hwr
  obtain rfl := Host.Outcome.next.inj ((exec_sealReport_eq_withSeal hmode).symm.trans hseal)
  have hlen : s.withSeal.logicalLen = 547 := congrArg Config.outLen hmode
  obtain rfl := Host.Outcome.next.inj ((exec_rbWr d (by omega)).symm.trans hwr)
  have hcurrent := State.sealCurrent_withSeal hwf
  have hread : ∀ y, ((s.withSeal.writeByte a.toNat d).withResp .ok).byteAt y = if y = a.toNat then d else s.withSeal.byteAt y :=
    fun y => State.byteAt_writeByte (State.wf_withSeal hwf) _ y d
  obtain ⟨hstale, hstored⟩ := hcurrent.stale_of_byteAt_ne
    (fun y hy => (hread y).trans (if_neg (by omega))) ha (fun heq => hd (((hread _).trans (if_pos rfl)).symm.trans heq))
    (fun y _ hy => (hread y).trans (if_neg hy)) rfl
  exact ⟨hcurrent, hstale, hstored, rfl, rfl⟩

/-- Settles O59: the field lies before the checksum field, which is so left alone. -/
theorem triggerChangeAfterSealIsStale : Obligations.TriggerChangeAfterSealIsStale := by
  intro s u v i g x hwf hmode hseal hi hfield hexec hx hne hsame
  obtain rfl := Host.Outcome.next.inj ((exec_sealReport_eq_withSeal hmode).symm.trans hseal)
  have hbehind : ∀ y, 74 ≤ y → v.byteAt y = s.withSeal.byteAt y := fun y hy =>
    byteAt_of_triggerOf_of_outside hi hexec (.inr (hfield.trans hy))
  obtain ⟨te, hte⟩ := exists_writeBytes_of_triggerOf hi
  obtain rfl := hte hexec
  obtain ⟨hstale, hstored⟩ := (State.sealCurrent_withSeal hwf).stale_of_byteAt_ne hbehind hx hne hsame rfl
  exact ⟨hstale, hstored, rfl, rfl⟩

/-- Settles O37: `CKSUM` and wireless `SEAL` each leave the fold of the report's bytes. -/
theorem oneAccumulator : Obligations.OneAccumulator := by
  refine ⟨fun s n ds hn => exists_execAll_interruptedStream (fun t ht => ?_) ds,
    fun s ds hmode => exists_execAll_interruptedStream (fun t ht => ?_) ds⟩
  · have hn' : n.toNat ≤ t.logicalLen := hn.trans_eq (congrArg Config.outLen ht).symm
    exact ⟨_, exec_cksum hn', rfl, rfl, rfl⟩
  · exact ⟨_, exec_sealReport_eq_withSeal (ht.trans hmode), rfl, rfl, rfl⟩

/-- Settles O12: each field as the host's reset writes it. -/
theorem hostResetRestores : Obligations.HostResetRestores := fun _ _ hin =>
  ⟨_, step_of_inputs_reset hin, rfl, fun _ => rfl, rfl, rfl, rfl, rfl⟩

end Sys2Proof
end
